-- ==== Sys2Proof/Word.lean ====
section
/-! DEFINITION. The word and byte types (spec 00_scope.md R8: DATA_W = ADDR_W = CMD_W = 32). -/

namespace Sys2Proof

/-- A 32-bit register value or command word (R8). -/
abbrev Word := BitVec 32

/-- One byte of MEM or of PHBUF (R50, R41). -/
abbrev Byte := BitVec 8

end Sys2Proof
end

