-- ==== Sys2Proof/Config.lean ====
section
/-! DEFINITION. The implementation parameters of spec 00_scope.md R8.

`BUF_LEN` is OPEN in the spec. The machine's own value of it is a field of `State` (`State.bufLen`), so that a
statement over every state is a statement over every `BUF_LEN`; the number here is only the one `State.reset` names. -/

namespace Sys2Proof.Config

/-- The `BUF_LEN` that `State.reset` names. DESIGN CHOICE (log 1): the spec leaves it open, and 64 is the value
95_test_vectors.md uses wherever a vector names none. Unsafe for a claim about `State.reset` only; no meaning reads it. -/
def bufLen : Word := 64#32

/-- PH_MAX, the size of PHBUF in bytes (R8). -/
def phMax : Nat := 40

end Sys2Proof.Config
end

