-- ==== Sys2Proof/Syntax.lean ====
section
/-! DEFINITION. The commands of ICFE, one constructor per row of spec/opcode_table.json.

Operands stand as the assembler syntax of 30_encoding.md R85 writes them: naturals (R9: no value is signed, R84: every
immediate is unsigned and zero-extended). `w` is the field width W, `sh` the shift S, `off` a local offset, `n` a byte
count, `fld` the local offset of the checksum field, `p` the P bit. `WellFormed` says which fit their encoding (log 13). -/

namespace Sys2Proof

/-- A command (R81). FLD and FST have one constructor per container width, as the opcode table has one row. -/
inductive Instr where
  | nop
  | ofs (off : Nat)
  | ld8 (off : Nat)
  | ld16 (off : Nat)
  | ld32 (off : Nat)
  | st8 (off : Nat)
  | st16 (off : Nat)
  | st32 (off : Nat)
  | fld8 (w sh off : Nat)
  | fld16 (w sh off : Nat)
  | fld32 (w sh off : Nat)
  | fst8 (w sh off : Nat)
  | fst16 (w sh off : Nat)
  | fst32 (w sh off : Nat)
  | fmsk (w sh : Nat)
  | fext (w sh : Nat)
  | fins (w sh : Nat)
  | phclr
  | phb8
  | phb16
  | phb32
  | phcpy (n off : Nat)
  | ph4
  | ph6
  | cksum (p : Bool) (fld : Nat)
  | ckver (p : Bool) (fld : Nat)
  | ckapp (p : Bool) (fld : Nat)
  | ckclr (fld : Nat)
  deriving DecidableEq, Repr

end Sys2Proof
end

