-- ==== Sys2Proof/WellFormed.lean ====
section
/-! DEFINITION. Which commands have an encoding: the operand ranges of spec 30_encoding.md R73 to R80, which an assembler
checks (R85: "An assembler refuses an operand that does not fit its field"). That a field fits its container
(`W + S <= cbits`) is NOT well-formedness: such a word decodes, and the command raises FIELD (R78). -/

namespace Sys2Proof

/-- Format A's and format C's 16-bit local offset (R74, R80). -/
def fitsOff16 (off : Nat) : Bool := decide (off < 65536)

/-- Format F's operands: W in 1..32, S in 0..31, off14 below 16384 (R75). -/
def fitsField (w sh off : Nat) : Bool := decide (1 ≤ w ∧ w ≤ 32 ∧ sh < 32 ∧ off < 16384)

/-- Every operand fits its field (R85). -/
def Instr.wellFormed : Instr → Bool
  | .nop => true
  | .ofs off => fitsOff16 off
  | .ld8 off => fitsOff16 off
  | .ld16 off => fitsOff16 off
  | .ld32 off => fitsOff16 off
  | .st8 off => fitsOff16 off
  | .st16 off => fitsOff16 off
  | .st32 off => fitsOff16 off
  | .fld8 w sh off => fitsField w sh off
  | .fld16 w sh off => fitsField w sh off
  | .fld32 w sh off => fitsField w sh off
  | .fst8 w sh off => fitsField w sh off
  | .fst16 w sh off => fitsField w sh off
  | .fst32 w sh off => fitsField w sh off
  | .fmsk w sh => fitsField w sh 0
  | .fext w sh => fitsField w sh 0
  | .fins w sh => fitsField w sh 0
  | .phclr => true
  | .phb8 => true
  | .phb16 => true
  | .phb32 => true
  | .phcpy n off => decide (n < 64) && fitsOff16 off
  | .ph4 => true
  | .ph6 => true
  | .cksum _ fld => fitsOff16 fld
  | .ckver _ fld => fitsOff16 fld
  | .ckapp _ fld => fitsOff16 fld
  | .ckclr fld => fitsOff16 fld

/-- `i` has an encoding. -/
abbrev Instr.WellFormed (i : Instr) : Prop := i.wellFormed = true

end Sys2Proof
end

