-- ==== Sys2Proof/Decode.lean ====
section
/-! DEFINITION. The command decoder and, after it, the encoder (spec 30_encoding.md).

`decode` is total on 32-bit words and rejects by name; every rejection raises the one error ILLEGAL (R82, R83, R193).
`encode` is written from the same format tables. -/

namespace Sys2Proof

/-- Why a word is no command (R82, R83). -/
inductive IllegalReason where
  /-- an opcode absent from the map of R81 (R82) -/
  | reservedOpcode
  /-- a bit its format marks reserved is 1 (R83 a) -/
  | reservedBit
  /-- cw = 0b11 in format F (R83 b) -/
  | containerWidth
  /-- FMSK, FEXT or FINS with cw != 0b10 or off14 != 0 (R83 c) -/
  | registerForm
  deriving DecidableEq, Repr

/-- What a command word decodes to: exactly one command, or illegal (R83). -/
inductive Decoded where
  | command (i : Instr)
  | illegal (why : IllegalReason)
  deriving DecidableEq, Repr

/-- `v[hi:lo]`, bits hi down to lo as an unsigned number (R9). -/
def bits (v : Word) (hi lo : Nat) : Nat := v.toNat / 2 ^ lo % 2 ^ (hi + 1 - lo)

/-- Format N: no operand, [25:0] reserved (R73). -/
def decodeN (v : Word) (i : Instr) : Decoded :=
  if bits v 25 0 = 0 then .command i else .illegal .reservedBit

/-- Format A: [25:16] reserved, off16 = [15:0] (R74). -/
def decodeA (v : Word) (mk : Nat → Instr) : Decoded :=
  if bits v 25 16 = 0 then .command (mk (bits v 15 0)) else .illegal .reservedBit

/-- Format F of FLD and FST: cw = [25:24] selects the container, W = [23:19] + 1, S = [18:14], off14 = [13:0] (R75, R76). -/
def decodeF (v : Word) (mk8 mk16 mk32 : Nat → Nat → Nat → Instr) : Decoded :=
  match bits v 25 24 with
  | 0 => .command (mk8 (bits v 23 19 + 1) (bits v 18 14) (bits v 13 0))
  | 1 => .command (mk16 (bits v 23 19 + 1) (bits v 18 14) (bits v 13 0))
  | 2 => .command (mk32 (bits v 23 19 + 1) (bits v 18 14) (bits v 13 0))
  | _ => .illegal .containerWidth

/-- Format F of the register-only commands: cw must be 0b10 and off14 must be 0 (R77). -/
def decodeFReg (v : Word) (mk : Nat → Nat → Instr) : Decoded :=
  if bits v 25 24 = 3 then .illegal .containerWidth
  else if bits v 25 24 = 2 ∧ bits v 13 0 = 0 then .command (mk (bits v 23 19 + 1) (bits v 18 14))
  else .illegal .registerForm

/-- Format P: [25:22] reserved, n = [21:16], off16 = [15:0] (R79). -/
def decodeP (v : Word) (mk : Nat → Nat → Instr) : Decoded :=
  if bits v 25 22 = 0 then .command (mk (bits v 21 16) (bits v 15 0)) else .illegal .reservedBit

/-- Format C with a P bit: P = [25], [24:16] reserved, fld16 = [15:0] (R80). -/
def decodeC (v : Word) (mk : Bool → Nat → Instr) : Decoded :=
  if bits v 24 16 = 0 then .command (mk (decide (bits v 25 25 = 1)) (bits v 15 0)) else .illegal .reservedBit

/-- Format C of CKCLR, whose bit 25 is reserved too (R80, R83 a). -/
def decodeCNoP (v : Word) (mk : Nat → Instr) : Decoded :=
  if bits v 25 16 = 0 then .command (mk (bits v 15 0)) else .illegal .reservedBit

/-- The decoder: the opcode `[31:26]` alone selects the command and its format (R72, R81, R82). -/
def decode (v : Word) : Decoded :=
  match bits v 31 26 with
  | 0x00 => decodeN v .nop
  | 0x01 => decodeA v .ofs
  | 0x02 => decodeA v .ld8
  | 0x03 => decodeA v .ld16
  | 0x04 => decodeA v .ld32
  | 0x05 => decodeA v .st8
  | 0x06 => decodeA v .st16
  | 0x07 => decodeA v .st32
  | 0x08 => decodeF v .fld8 .fld16 .fld32
  | 0x09 => decodeF v .fst8 .fst16 .fst32
  | 0x0A => decodeFReg v .fmsk
  | 0x0B => decodeFReg v .fext
  | 0x0C => decodeFReg v .fins
  | 0x10 => decodeN v .phclr
  | 0x11 => decodeN v .phb8
  | 0x12 => decodeN v .phb16
  | 0x13 => decodeN v .phb32
  | 0x14 => decodeP v .phcpy
  | 0x15 => decodeN v .ph4
  | 0x16 => decodeN v .ph6
  | 0x20 => decodeC v .cksum
  | 0x21 => decodeC v .ckver
  | 0x22 => decodeC v .ckapp
  | 0x23 => decodeCNoP v .ckclr
  | _ => .illegal .reservedOpcode

/-- The opcode of a command (R81). -/
def opcode : Instr → Nat
  | .nop => 0x00
  | .ofs _ => 0x01
  | .ld8 _ => 0x02
  | .ld16 _ => 0x03
  | .ld32 _ => 0x04
  | .st8 _ => 0x05
  | .st16 _ => 0x06
  | .st32 _ => 0x07
  | .fld8 _ _ _ => 0x08
  | .fld16 _ _ _ => 0x08
  | .fld32 _ _ _ => 0x08
  | .fst8 _ _ _ => 0x09
  | .fst16 _ _ _ => 0x09
  | .fst32 _ _ _ => 0x09
  | .fmsk _ _ => 0x0A
  | .fext _ _ => 0x0B
  | .fins _ _ => 0x0C
  | .phclr => 0x10
  | .phb8 => 0x11
  | .phb16 => 0x12
  | .phb32 => 0x13
  | .phcpy _ _ => 0x14
  | .ph4 => 0x15
  | .ph6 => 0x16
  | .cksum _ _ => 0x20
  | .ckver _ _ => 0x21
  | .ckapp _ _ => 0x22
  | .ckclr _ => 0x23

/-- Format F's operand bits: `(cw << 24) | ((W - 1) << 19) | (S << 14) | off14` (R75). -/
def encodeF (cw w sh off : Nat) : Nat := cw * 2 ^ 24 + (w - 1) * 2 ^ 19 + sh * 2 ^ 14 + off

/-- Format C's operand bits: `(P << 25) | fld16` (R80). -/
def encodeC (p : Bool) (fld : Nat) : Nat := (if p then 2 ^ 25 else 0) + fld

/-- Bits [25:0] of a command, by its format (R73, R74, R75, R79, R80). -/
def operandBits : Instr → Nat
  | .nop => 0
  | .ofs off => off
  | .ld8 off => off
  | .ld16 off => off
  | .ld32 off => off
  | .st8 off => off
  | .st16 off => off
  | .st32 off => off
  | .fld8 w sh off => encodeF 0 w sh off
  | .fld16 w sh off => encodeF 1 w sh off
  | .fld32 w sh off => encodeF 2 w sh off
  | .fst8 w sh off => encodeF 0 w sh off
  | .fst16 w sh off => encodeF 1 w sh off
  | .fst32 w sh off => encodeF 2 w sh off
  | .fmsk w sh => encodeF 2 w sh 0
  | .fext w sh => encodeF 2 w sh 0
  | .fins w sh => encodeF 2 w sh 0
  | .phclr => 0
  | .phb8 => 0
  | .phb16 => 0
  | .phb32 => 0
  | .phcpy n off => n * 2 ^ 16 + off
  | .ph4 => 0
  | .ph6 => 0
  | .cksum p fld => encodeC p fld
  | .ckver p fld => encodeC p fld
  | .ckapp p fld => encodeC p fld
  | .ckclr fld => fld

/-- The word of a well-formed command: `(op << 26) | operands`, reserved fields 0 (R73 to R80, R85). -/
def encode (i : Instr) : Word := BitVec.ofNat 32 (opcode i * 2 ^ 26 + operandBits i)

/-- The assembler: it refuses a command with an operand that does not fit its field (R85). -/
def assemble (i : Instr) : Option Word := if i.wellFormed then some (encode i) else none

/-- The command of a word written as spec/opcode_table.json numbers its bits. Every command is exactly one 32-bit word
(R71), so the word is bits 31..0 and nothing above them. -/
def decodeTableWord (nbits w : Nat) : Option Instr :=
  match decode (BitVec.ofNat 32 (w % 2 ^ nbits)) with
  | .command i => some i
  | .illegal _ => none

end Sys2Proof
end

