-- ==== Sys2Proof/Machine/State.lean ====
section
/-! DEFINITION. The state of ICFE (spec 10_state.md R21), the host operations that drive it, the reasons a step can stop,
and the state after reset (70_reset_and_hazards.md R220 to R222). -/

namespace Sys2Proof.Machine

/-- MEM as a list of (index, byte) pairs: indices strictly rising, no pair whose byte is what an unlisted index reads as
(`Memory.wf`). -/
abbrev Memory := List Host.Cell

/-- One thing the host, or the platform, does to ICFE (20_memory.md R52, R62; 30_encoding.md R86; 70_reset_and_hazards.md
R220). The host's register accesses carry their width in bits and their byte offset, so that the accesses R38 leaves
unmodelled can be written down and refused. -/
inductive HostOp where
  /-- a register write of `v` at byte offset `off`; offset 0 is CMD, so this is also how a command is issued -/
  | regWrite (width off : Nat) (v : Word)
  /-- a register read at byte offset `off` -/
  | regRead (width off : Nat)
  /-- a write of one byte to MEM -/
  | memWrite (a : Nat) (b : Byte)
  /-- a read of one byte of MEM -/
  | memRead (a : Nat)
  /-- the reset event -/
  | reset
  deriving DecidableEq, Repr

/-- Everything the spec gives the machine (R21), its parameter BUF_LEN (R8), and two fields of the model's own. -/
structure State where
  /-- MEM, the packet buffer (R50) -/
  mem : Memory
  /-- BASE, the header base offset (R26) -/
  base : Word
  /-- WDATA, the data to write (R27) -/
  wdata : Word
  /-- RDATA, the data read or computed (R28) -/
  rdata : Word
  /-- CK_END, the exclusive end of the checksum range (R29) -/
  ckEnd : Word
  /-- CK_SUM, the folded sum of the latest successful checksum (R30) -/
  ckSum : BitVec 16
  /-- PHBUF, the pseudo-header buffer (R41) -/
  phbuf : Vector Byte 40
  /-- PH_LEN, the number of valid pseudo-header bytes, 0..40 (R31) -/
  phLen : Nat
  /-- STATUS.VOK, the result of the latest successful CKVER (R25) -/
  vok : Bool
  /-- STATUS.ERR, the latched error code, 0 for none (R25, R192) -/
  err : BitVec 4
  /-- ERRCMD, the command word that set ERR (R33) -/
  errcmd : Word
  /-- ERRADDR, the address the error latch recorded (R34) -/
  erraddr : Word
  /-- the parameter BUF_LEN, 0 .. 2^32 - 1, which register BUFLEN reads (R8, R32); nothing writes it -/
  bufLen : Word
  /-- the model's own: what the host will do next, first operation first (log 3) -/
  pending : List HostOp
  /-- the model's own: what the host's latest read returned (log 4) -/
  reply : Option Word
  deriving DecidableEq, Repr

/-- Why the machine stops with a fault: the host reached for something the spec says does not exist. No command raises
one; a command's own errors are NEXT states (60_exceptions.md R190). -/
inductive Fault where
  /-- the host's register access is at a byte offset outside the 128-byte register space (R24, log 8); raised by the
  host's register port; safe: the model stops where a platform might go on -/
  | outsideRegisterSpace
  /-- the host's MEM access is at an index at or beyond BUF_LEN (R50, log 7); raised by the host's memory port; safe -/
  | outsidePacketBuffer
  deriving DecidableEq, Repr

/-- Why the machine gives no meaning. -/
inductive Refusal where
  /-- an instruction that has no meaning yet; raised by an arm of `exec` only, and by none in this model; safe -/
  | notModelled (mnemonic : String)
  /-- a host register access that is not 32 bits wide or not at a multiple of 4 (R38: "The model refuses it as
  unmodelled"); raised by the host's register port; safe -/
  | oddRegisterAccess
  deriving DecidableEq, Repr

/-- A machine with packet buffer length `bufLen` and packet buffer content `mem`, right after power-up or reset: every
register at the value R220 gives. BUF_LEN and MEM are arguments, since the spec leaves them open (R8, R221). -/
def State.powerUp (bufLen : Word) (mem : Memory) : State where
  mem := mem
  base := 0
  wdata := 0
  rdata := 0
  ckEnd := 0
  ckSum := 0
  phbuf := Vector.replicate 40 0
  phLen := 0
  vok := false
  err := 0
  errcmd := 0
  erraddr := 0
  bufLen := bufLen
  pending := []
  reply := none

/-- The machine right after reset, with nothing placed: BUF_LEN as `Config.bufLen` names it (log 1), no MEM byte listed
(log 2), no host operation waiting (log 3). -/
def State.reset : State := State.powerUp Config.bufLen []

end Sys2Proof.Machine
end

