-- ==== Sys2Proof/Machine/Ops.lean ====
section
/-! DEFINITION. The named operations over memory, registers, PHBUF and the error latch, and `runCommand`, through which
every command's meaning goes. -/

namespace Sys2Proof.Machine

/-! ## Naturals (00_scope.md R10) -/

/-- `mask(W) = 2^W - 1` (R10). -/
def mask (w : Nat) : Nat := 2 ^ w - 1

/-- `~_N v`, the N-bit complement of `v < 2^N` (R10). -/
def compl (n v : Nat) : Nat := (2 ^ n - 1) - v

/-! ## The packet buffer as a canonical list -/

/-- What a byte of MEM reads as that nothing has written. DESIGN CHOICE (log 2): the spec leaves power-up content
unspecified (R221), and its test vectors take unlisted bytes as 0. -/
def Memory.unlisted : Byte := 0

/-- The canonical form: indices strictly rising, no byte equal to `Memory.unlisted`. -/
def Memory.wf : Memory → Bool
  | [] => true
  | [(_, b)] => decide (b ≠ Memory.unlisted)
  | (a, b) :: (a', b') :: m => decide (b ≠ Memory.unlisted) && decide (a < a') && Memory.wf ((a', b') :: m)

/-- `MEM[a]`. -/
def Memory.readByte : Memory → Nat → Byte
  | [], _ => Memory.unlisted
  | (k, b) :: m, a => if k = a then b else Memory.readByte m a

/-- Drop what is listed at `a`. -/
def Memory.erase : Memory → Nat → Memory
  | [], _ => []
  | (k, b) :: m, a => if k = a then Memory.erase m a else (k, b) :: Memory.erase m a

/-- List `b` at `a`, before the first greater index. -/
def Memory.insert : Memory → Nat → Byte → Memory
  | [], a, b => [(a, b)]
  | (k, c) :: m, a, b => if a < k then (a, b) :: (k, c) :: m else (k, c) :: Memory.insert m a b

/-- `MEM[a] <- b`, keeping the canonical form: writing what an unlisted index reads as removes the entry. -/
def Memory.writeByte (m : Memory) (a : Nat) (b : Byte) : Memory :=
  if b = Memory.unlisted then Memory.erase m a else Memory.insert (Memory.erase m a) a b

/-- `MEM[a], MEM[a+1], ... <- bs`. -/
def Memory.writeBytes : Memory → Nat → List Byte → Memory
  | m, _, [] => m
  | m, a, b :: bs => Memory.writeBytes (Memory.writeByte m a b) (a + 1) bs

/-! ## Byte order: big-endian, decided here once (20_memory.md R53) -/

/-- The number whose big-endian bytes are `bs` (R12: `sum of MEM[a+j] << (8*(n-1-j))`). -/
def beValue : List Byte → Nat
  | [] => 0
  | b :: bs => (b.toNat <<< (8 * bs.length)) + beValue bs

/-- The `n` big-endian bytes of `v`: byte j is `(v >> (8*(n-1-j))) & 0xFF` (R12). -/
def beBytes : Nat → Nat → List Byte
  | 0, _ => []
  | n + 1, v => BitVec.ofNat 8 ((v >>> (8 * n)) &&& 0xFF) :: beBytes n v

/-! ## Memory primitives (00_scope.md R12) -/

/-- `MEM[a]` of a state. -/
def State.byteAt (s : State) (a : Nat) : Byte := Memory.readByte s.mem a

/-- `InBounds(a, n)`: `n = 0` or `a + n <= BUF_LEN`, exact on naturals (R12). -/
def State.inBounds (s : State) (a n : Nat) : Bool := decide (n = 0 ∨ a + n ≤ s.bufLen.toNat)

/-- `MemBytes(a, n) = [MEM[a], ..., MEM[a+n-1]]` (R12). -/
def State.memBytes (s : State) (a n : Nat) : List Byte := (List.range' a n).map s.byteAt

/-- `MemRead(a, n)`, big-endian and zero-extended (R12). -/
def State.memRead (s : State) (a n : Nat) : Nat := beValue (s.memBytes a n)

/-! ## Named updates of the state -/

/-- `x[BASE] <- v` (10_state.md R26). -/
def State.setBase (s : State) (v : Word) : State := { s with base := v }

/-- `x[WDATA] <- v` (R27). -/
def State.setWdata (s : State) (v : Word) : State := { s with wdata := v }

/-- `x[CK_END] <- v` (R29). -/
def State.setCkEnd (s : State) (v : Word) : State := { s with ckEnd := v }

/-- What is left for the host to do. -/
def State.setPending (s : State) (ops : List HostOp) : State := { s with pending := ops }

/-- What a host read returned. -/
def State.setReply (s : State) (v : Word) : State := { s with reply := some v }

/-- `MEM[a] <- b`, one byte (20_memory.md R52). -/
def State.setByte (s : State) (a : Nat) (b : Byte) : State := { s with mem := Memory.writeByte s.mem a b }

/-- `x[RDATA] <- v`, for `v` the low 32 bits of a natural. -/
def State.setRdata (s : State) (v : Nat) : State := { s with rdata := BitVec.ofNat 32 v }

/-- `MemWrite(a, n, v)`: the n bytes from a become v, big-endian (R12). -/
def State.memWrite (s : State) (a n v : Nat) : State := { s with mem := Memory.writeBytes s.mem a (beBytes n v) }

/-- `x[CK_SUM] <- v`. -/
def State.setCkSum (s : State) (v : Nat) : State := { s with ckSum := BitVec.ofNat 16 v }

/-- `x[STATUS.VOK] <- v`. -/
def State.setVok (s : State) (v : Bool) : State := { s with vok := v }

/-- PHBUF with `bs` at k, k+1, ... -/
def phWrite : Vector Byte 40 → Nat → List Byte → Vector Byte 40
  | p, _, [] => p
  | p, k, b :: bs => phWrite (p.setIfInBounds k b) (k + 1) bs

/-- Append `bs` to the pseudo-header: PHBUF[PH_LEN ...] <- bs, PH_LEN grows by their number (43_pseudo_header.md R141 to
R144; the room was checked before). -/
def State.phAppend (s : State) (bs : List Byte) : State :=
  { s with phbuf := phWrite s.phbuf s.phLen bs, phLen := s.phLen + bs.length }

/-- Make `bs` the whole pseudo-header: the rest of PHBUF is zeroed, PH_LEN is their number (R140, R146, R147). -/
def State.phReplace (s : State) (bs : List Byte) : State :=
  { s with phbuf := phWrite (Vector.replicate 40 0) 0 bs, phLen := bs.length }

/-! ## The error latch (60_exceptions.md) -/

/-- The errors a command raises (R192). -/
inductive ErrorKind where
  | illegal
  | field
  | range
  | phovf
  | bounds
  deriving DecidableEq, Repr

/-- What a failing check raises: `Error(code, addr)` (00_scope.md R13). -/
structure CommandError where
  kind : ErrorKind
  addr : Word
  deriving DecidableEq, Repr

/-- The code STATUS.ERR takes (R192). -/
def errorCode : ErrorKind → BitVec 4
  | .illegal => 1
  | .field => 2
  | .range => 3
  | .phovf => 4
  | .bounds => 5

/-- STATUS.ERR != 0: commands are discarded (R198). -/
def State.locked (s : State) : Bool := decide (s.err ≠ 0)

/-- TAKING AN ERROR, the machine's only exception: the latch records the code, the command word and the address, and
nothing else changes (R197). -/
def State.raise (s : State) (e : CommandError) (w : Word) : State :=
  { s with err := errorCode e.kind, errcmd := w, erraddr := e.addr }

/-- RETURN FROM AN ERROR, a host write to ECLR: ERR, ERRCMD and ERRADDR become 0, which unlocks the engine, and nothing
else changes (R202, 10_state.md R35). -/
def State.clearError (s : State) : State := { s with err := 0, errcmd := 0, erraddr := 0 }

/-! ## The checks of R200; each answers the error it raises, if it fails -/

/-- FIELD: `W + S > cbits` (R194). -/
def fieldCheck (w sh cbits : Nat) : Option CommandError :=
  if w + sh > cbits then some ⟨.field, 0⟩ else none

/-- RANGE: `x[CK_END] < x[BASE]` (R195). -/
def State.rangeCheck (s : State) : Option CommandError :=
  if s.ckEnd.toNat < s.base.toNat then some ⟨.range, 0⟩ else none

/-- PHOVF: `x[PH_LEN] + k > 40` (R199). -/
def State.roomCheck (s : State) (k : Nat) : Option CommandError :=
  if s.phLen + k > Config.phMax then some ⟨.phovf, 0⟩ else none

/-- ERRADDR of BOUNDS: the lowest address of the span outside the buffer, `min(max(a, BUF_LEN), 0xFFFFFFFF)` (R196). -/
def State.boundsAddr (s : State) (a : Nat) : Word := BitVec.ofNat 32 (min (max a s.bufLen.toNat) 0xFFFFFFFF)

/-- BOUNDS of one span: not `InBounds(a, n)` (R196). -/
def State.spanCheck (s : State) (a n : Nat) : Option CommandError :=
  if s.inBounds a n then none else some ⟨.bounds, s.boundsAddr a⟩

/-- The first check that fails (R200: "the first that applies"). -/
def firstError : List (Option CommandError) → Option CommandError
  | [] => none
  | some e :: _ => some e
  | none :: cs => firstError cs

/-- One command with word `w` (30_encoding.md R70, 60_exceptions.md R200): discarded while locked; else its checks in
order, the first that fails latching its error; else its effect on the state before the command, from which it reads all
its inputs (20_memory.md R64). It never stops the machine. -/
def runCommand (w : Word) (checks : List (Option CommandError)) (effect : State → State) (s : State) :
    Host.Outcome State Fault Refusal :=
  if s.locked then .next s
  else
    match firstError checks with
    | some e => .next (s.raise e w)
    | none => .next (effect s)

/-! ## Reset (70_reset_and_hazards.md) -/

/-- The reset event: every register takes its reset value; MEM and BUF_LEN keep theirs (R220, R221). What the host will do
next and the host's latest reply are the host's, not ICFE's, and stay (log 12). -/
def State.applyReset (s : State) : State :=
  { State.powerUp s.bufLen s.mem with pending := s.pending, reply := s.reply }

end Sys2Proof.Machine
end

