-- ==== Sys2Proof/Machine/Operands.lean ====
section
/-! DEFINITION. Every operand form of the commands: absolute addresses, WDATA as data, bit fields in a container, the
pseudo-header, and the checksum's range and field (spec 30_encoding.md R84). -/

namespace Sys2Proof.Machine

/-- The absolute address `x[BASE] + zext(off)`, exact on naturals (41_access.md R101). -/
def State.absAddr (s : State) (off : Nat) : Nat := s.base.toNat + off

/-- WDATA's low `n` bytes as a number: the data operand of a store or an append (R84; 41_access.md R106 to R108). -/
def State.dataLow (s : State) (n : Nat) : Nat := s.wdata.toNat &&& mask (8 * n)

/-- `(v >> S) & mask(W)`: a field read out of its container (42_bitfield.md R122, R125). -/
def extractField (v w sh : Nat) : Nat := (v >>> sh) &&& mask w

/-- `mask(W) << S`: a field's mask in its container (30_encoding.md R76). -/
def fieldMask (w sh : Nat) : Nat := mask w <<< sh

/-- `(v & ~m) | ((x & mask(W)) << S)`: the container `v` of `cbits` bits with `x` in the field (42_bitfield.md R123,
R126). -/
def insertField (cbits v w sh x : Nat) : Nat :=
  (v &&& compl cbits (fieldMask w sh)) ||| ((x &&& mask w) <<< sh)

/-- `PHBUF[i]`, for i below 40. -/
def State.phByte (s : State) (i : Nat) : Byte := s.phbuf.toList.getD i 0

/-- `PHBUF[0 : x[PH_LEN]]`, the pseudo-header (10_state.md R41). -/
def State.pseudoHeader (s : State) : List Byte := s.phbuf.toList.take s.phLen

/-- s0 = x[BASE], the first byte of the main range (44_checksum.md R160). -/
def State.rangeStart (s : State) : Nat := s.base.toNat

/-- e0 - s0, the length of the main range (R160). -/
def State.rangeLength (s : State) : Nat := s.ckEnd.toNat - s.base.toNat

end Sys2Proof.Machine
end

