-- ==== Sys2Proof/Machine/Flags.lean ====
section
/-! DEFINITION. The two flags of ICFE, VOK and ERR, and the STATUS word that shows them (spec 10_state.md R25, R42). No
command sets a carry or an overflow flag. -/

namespace Sys2Proof.Machine

/-- VOK after a CKVER: 1 when the stored checksum equals the computed one, exact 16-bit equality (44_checksum.md R172,
R178). -/
def verifyFlag (stored computed : Nat) : Bool := decide (stored = computed)

/-- STATUS as the host reads it: ERR in [3:0], VOK in [8], every other bit 0 (10_state.md R25). -/
def State.status (s : State) : Word := BitVec.ofNat 32 (s.err.toNat + (if s.vok then 2 ^ 8 else 0))

end Sys2Proof.Machine
end

