-- ==== Sys2Proof/Machine/Access.lean ====
section
/-! DEFINITION. Control, offset composition and big-endian access: NOP, OFS, LD8, LD16, LD32, ST8, ST16, ST32 (spec
41_access.md). -/

namespace Sys2Proof.Machine

/-- R100: nothing happens. -/
def execNop (s : State) : Host.Outcome State Fault Refusal :=
  runCommand (encode .nop) [] id s

/-- R102: `x[RDATA] <- (x[BASE] + off16) mod 2^32`; no BOUNDS check, no flag. -/
def execOfs (off : Nat) (s : State) : Host.Outcome State Fault Refusal :=
  runCommand (encode (.ofs off)) [] (fun s => s.setRdata (s.absAddr off)) s

/-- A read of `n` bytes at `a` into RDATA, zero-extended (R103 to R105). -/
def State.load (s : State) (a n : Nat) : State := s.setRdata (s.memRead a n)

/-- A write of WDATA's low `n` bytes at `a` (R106 to R108). -/
def State.store (s : State) (a n : Nat) : State := s.memWrite a n (s.dataLow n)

/-- R103. -/
def execLd8 (off : Nat) (s : State) : Host.Outcome State Fault Refusal :=
  runCommand (encode (.ld8 off)) [s.spanCheck (s.absAddr off) 1] (fun s => s.load (s.absAddr off) 1) s

/-- R104. -/
def execLd16 (off : Nat) (s : State) : Host.Outcome State Fault Refusal :=
  runCommand (encode (.ld16 off)) [s.spanCheck (s.absAddr off) 2] (fun s => s.load (s.absAddr off) 2) s

/-- R105. -/
def execLd32 (off : Nat) (s : State) : Host.Outcome State Fault Refusal :=
  runCommand (encode (.ld32 off)) [s.spanCheck (s.absAddr off) 4] (fun s => s.load (s.absAddr off) 4) s

/-- R106. -/
def execSt8 (off : Nat) (s : State) : Host.Outcome State Fault Refusal :=
  runCommand (encode (.st8 off)) [s.spanCheck (s.absAddr off) 1] (fun s => s.store (s.absAddr off) 1) s

/-- R107. -/
def execSt16 (off : Nat) (s : State) : Host.Outcome State Fault Refusal :=
  runCommand (encode (.st16 off)) [s.spanCheck (s.absAddr off) 2] (fun s => s.store (s.absAddr off) 2) s

/-- R108. -/
def execSt32 (off : Nat) (s : State) : Host.Outcome State Fault Refusal :=
  runCommand (encode (.st32 off)) [s.spanCheck (s.absAddr off) 4] (fun s => s.store (s.absAddr off) 4) s


end Sys2Proof.Machine
end

