-- ==== Sys2Proof/Machine/BitField.lean ====
section
/-! DEFINITION. Bit fields: FLD and FST in a container of 1, 2 or 4 bytes, FMSK, FEXT, FINS on registers (spec
42_bitfield.md). -/

namespace Sys2Proof.Machine

/-- The field (W, S) of the `c`-byte container at `a` goes to RDATA, zero-extended (R122). -/
def State.fieldLoad (s : State) (c a w sh : Nat) : State := s.setRdata (extractField (s.memRead a c) w sh)

/-- WDATA's low W bits go into the field (W, S) of the `c`-byte container at `a`; the container's other bits are written
back as they were (R123, 20_memory.md R58). -/
def State.fieldStore (s : State) (c a w sh : Nat) : State :=
  s.memWrite a c (insertField (8 * c) (s.memRead a c) w sh s.wdata.toNat)

/-- The checks of FLD and FST in order: FIELD, then BOUNDS of the container (R121, R122, R123). -/
def State.containerChecks (s : State) (c a w sh : Nat) : List (Option CommandError) :=
  [fieldCheck w sh (8 * c), s.spanCheck a c]

/-- R122, container of 1 byte. -/
def execFld8 (w sh off : Nat) (s : State) : Host.Outcome State Fault Refusal :=
  runCommand (encode (.fld8 w sh off)) (s.containerChecks 1 (s.absAddr off) w sh)
    (fun s => s.fieldLoad 1 (s.absAddr off) w sh) s

/-- R122, container of 2 bytes. -/
def execFld16 (w sh off : Nat) (s : State) : Host.Outcome State Fault Refusal :=
  runCommand (encode (.fld16 w sh off)) (s.containerChecks 2 (s.absAddr off) w sh)
    (fun s => s.fieldLoad 2 (s.absAddr off) w sh) s

/-- R122, container of 4 bytes. -/
def execFld32 (w sh off : Nat) (s : State) : Host.Outcome State Fault Refusal :=
  runCommand (encode (.fld32 w sh off)) (s.containerChecks 4 (s.absAddr off) w sh)
    (fun s => s.fieldLoad 4 (s.absAddr off) w sh) s

/-- R123, container of 1 byte. -/
def execFst8 (w sh off : Nat) (s : State) : Host.Outcome State Fault Refusal :=
  runCommand (encode (.fst8 w sh off)) (s.containerChecks 1 (s.absAddr off) w sh)
    (fun s => s.fieldStore 1 (s.absAddr off) w sh) s

/-- R123, container of 2 bytes. -/
def execFst16 (w sh off : Nat) (s : State) : Host.Outcome State Fault Refusal :=
  runCommand (encode (.fst16 w sh off)) (s.containerChecks 2 (s.absAddr off) w sh)
    (fun s => s.fieldStore 2 (s.absAddr off) w sh) s

/-- R123, container of 4 bytes. -/
def execFst32 (w sh off : Nat) (s : State) : Host.Outcome State Fault Refusal :=
  runCommand (encode (.fst32 w sh off)) (s.containerChecks 4 (s.absAddr off) w sh)
    (fun s => s.fieldStore 4 (s.absAddr off) w sh) s

/-- R124: `x[RDATA] <- mask(W) << S`. -/
def execFmsk (w sh : Nat) (s : State) : Host.Outcome State Fault Refusal :=
  runCommand (encode (.fmsk w sh)) [fieldCheck w sh 32] (fun s => s.setRdata (fieldMask w sh)) s

/-- R125: `x[RDATA] <- (x[WDATA] >> S) & mask(W)`. -/
def execFext (w sh : Nat) (s : State) : Host.Outcome State Fault Refusal :=
  runCommand (encode (.fext w sh)) [fieldCheck w sh 32] (fun s => s.setRdata (extractField s.wdata.toNat w sh)) s

/-- R126: WDATA's low W bits go into RDATA's field; RDATA is source and destination. -/
def execFins (w sh : Nat) (s : State) : Host.Outcome State Fault Refusal :=
  runCommand (encode (.fins w sh)) [fieldCheck w sh 32]
    (fun s => s.setRdata (insertField 32 s.rdata.toNat w sh s.wdata.toNat)) s

end Sys2Proof.Machine
end

