-- ==== Sys2Proof/Machine/Checksum.lean ====
section
/-! DEFINITION. The Internet checksum and its commands CKSUM, CKVER, CKAPP, CKCLR (spec 44_checksum.md). -/

namespace Sys2Proof.Machine

/-- `Z(i)`: a byte of the main range, the two field bytes read as zero without a write to MEM (R162). -/
def State.zeroedByte (s : State) (f i : Nat) : Byte := if i = f ∨ i = f + 1 then 0 else s.byteAt i

/-- `Main`, the bytes of `[s0, e0)` (R161). -/
def State.mainRange (s : State) (f : Nat) : List Byte :=
  (List.range' s.rangeStart s.rangeLength).map (s.zeroedByte f)

/-- The stream: the pseudo-header, if P, then the main range, one sequence with nothing padded between them (R161). -/
def State.stream (s : State) (p : Bool) (fld : Nat) : List Byte :=
  (if p then s.pseudoHeader else []) ++ s.mainRange (s.absAddr fld)

/-- The exact sum of the stream's 16-bit big-endian words; an odd last byte is the high byte of a word (R161, R163). -/
def wordSum : List Byte → Nat
  | [] => 0
  | [b] => b.toNat <<< 8
  | b :: c :: bs => (b.toNat <<< 8) + c.toNat + wordSum bs

/-- The fold loop of R163, `while S > 0xFFFF: S <- (S & 0xFFFF) + (S >> 16)`, given the number of rounds it may take. -/
def foldRounds : Nat → Nat → Nat
  | 0, x => x
  | k + 1, x => if x > 0xFFFF then foldRounds k ((x &&& 0xFFFF) + (x >>> 16)) else x

/-- `Fold(S)`: each round with S > 0xFFFF lowers S, so S rounds are enough (R163; log 11). -/
def fold (x : Nat) : Nat := foldRounds x x

/-- sum16 of R163. -/
def State.sum16 (s : State) (p : Bool) (fld : Nat) : Nat := fold (wordSum (s.stream p fld))

/-- C of R164: the ones' complement of sum16. -/
def State.checksum (s : State) (p : Bool) (fld : Nat) : Nat := compl 16 (s.sum16 p fld)

/-- The checks of CKSUM, CKVER and CKAPP in order: RANGE, BOUNDS of the range, BOUNDS of the field (R160). -/
def State.checksumChecks (s : State) (fld : Nat) : List (Option CommandError) :=
  [s.rangeCheck, s.spanCheck s.rangeStart s.rangeLength, s.spanCheck (s.absAddr fld) 2]

/-- RDATA takes C and CK_SUM takes sum16 (R170, R172, R174). -/
def State.checksumResults (s : State) (p : Bool) (fld : Nat) : State :=
  (s.setRdata (s.checksum p fld)).setCkSum (s.sum16 p fld)

/-- R170: compute, MEM and VOK unchanged. -/
def execCksum (p : Bool) (fld : Nat) (s : State) : Host.Outcome State Fault Refusal :=
  runCommand (encode (.cksum p fld)) (s.checksumChecks fld)
    (fun s => s.checksumResults p fld) s

/-- R172: compute and compare with the stored field; MEM unchanged. -/
def execCkver (p : Bool) (fld : Nat) (s : State) : Host.Outcome State Fault Refusal :=
  runCommand (encode (.ckver p fld)) (s.checksumChecks fld)
    (fun s => (s.checksumResults p fld).setVok (verifyFlag (s.memRead (s.absAddr fld) 2) (s.checksum p fld))) s

/-- R174: compute from MEM before the write, and store C in the field. -/
def execCkapp (p : Bool) (fld : Nat) (s : State) : Host.Outcome State Fault Refusal :=
  runCommand (encode (.ckapp p fld)) (s.checksumChecks fld)
    (fun s => (s.checksumResults p fld).memWrite (s.absAddr fld) 2 (s.checksum p fld)) s

/-- R176: zero the field; CK_END is not read. -/
def execCkclr (fld : Nat) (s : State) : Host.Outcome State Fault Refusal :=
  runCommand (encode (.ckclr fld)) [s.spanCheck (s.absAddr fld) 2] (fun s => s.memWrite (s.absAddr fld) 2 0) s

end Sys2Proof.Machine
end

