-- ==== Sys2Proof/Machine/PseudoHeader.lean ====
section
/-! DEFINITION. The pseudo-header: PHCLR, PHB8, PHB16, PHB32, PHCPY, PH4, PH6 (spec 43_pseudo_header.md). -/

namespace Sys2Proof.Machine

/-- R140: all 40 bytes become 0, PH_LEN becomes 0. -/
def execPhclr (s : State) : Host.Outcome State Fault Refusal :=
  runCommand (encode .phclr) [] (fun s => s.phReplace []) s

/-- R141: append WDATA[7:0]. -/
def execPhb8 (s : State) : Host.Outcome State Fault Refusal :=
  runCommand (encode .phb8) [s.roomCheck 1] (fun s => s.phAppend (beBytes 1 (s.dataLow 1))) s

/-- R142: append WDATA[15:0], big-endian. -/
def execPhb16 (s : State) : Host.Outcome State Fault Refusal :=
  runCommand (encode .phb16) [s.roomCheck 2] (fun s => s.phAppend (beBytes 2 (s.dataLow 2))) s

/-- R143: append WDATA, big-endian. -/
def execPhb32 (s : State) : Host.Outcome State Fault Refusal :=
  runCommand (encode .phb32) [s.roomCheck 4] (fun s => s.phAppend (beBytes 4 (s.dataLow 4))) s

/-- R144: append n bytes of MEM as they are; PHOVF is checked before BOUNDS. -/
def execPhcpy (n off : Nat) (s : State) : Host.Outcome State Fault Refusal :=
  runCommand (encode (.phcpy n off)) [s.roomCheck n, s.spanCheck (s.absAddr off) n]
    (fun s => s.phAppend (s.memBytes (s.absAddr off) n)) s

/-- `HL = 4 * (MEM[b] & 0x0F)`, the IPv4 header length in bytes (R146). -/
def State.ipv4HeaderLength (s : State) (b : Nat) : Nat := 4 * ((s.byteAt b).toNat &&& 0x0F)

/-- `len = (TL - HL) mod 2^16`, the upper-layer length; it wraps, and nothing is validated (R146). -/
def State.ipv4UpperLength (s : State) (b : Nat) : Nat :=
  (s.memRead (b + 2) 2 + 2 ^ 16 - s.ipv4HeaderLength b) % 2 ^ 16

/-- The 12 bytes of the IPv4 pseudo-header: source, destination, zero, protocol id, length (R146, offsets of R145). -/
def State.ipv4PseudoHeader (s : State) (b : Nat) : List Byte :=
  s.memBytes (b + 12) 4 ++ s.memBytes (b + 16) 4 ++ [0, s.byteAt (b + 9)] ++ beBytes 2 (s.ipv4UpperLength b)

/-- R146. -/
def execPh4 (s : State) : Host.Outcome State Fault Refusal :=
  runCommand (encode .ph4) [s.spanCheck s.base.toNat 20] (fun s => s.phReplace (s.ipv4PseudoHeader s.base.toNat)) s

/-- The 36 bytes of the IPv6 pseudo-header: source, destination, one zero byte, next header, payload length (R147, offsets
of R148; 90_conflicts.md C1 keeps the length 36). -/
def State.ipv6PseudoHeader (s : State) (b : Nat) : List Byte :=
  s.memBytes (b + 8) 16 ++ s.memBytes (b + 24) 16 ++ [0, s.byteAt (b + 6)] ++ s.memBytes (b + 4) 2

/-- R147. -/
def execPh6 (s : State) : Host.Outcome State Fault Refusal :=
  runCommand (encode .ph6) [s.spanCheck s.base.toNat 40] (fun s => s.phReplace (s.ipv6PseudoHeader s.base.toNat)) s

end Sys2Proof.Machine
end

