-- ==== Sys2Proof/Machine/Dispatch.lean ====
section
/-! DEFINITION. The dispatch: one arm per command, each one direct call of its meaning. -/

namespace Sys2Proof.Machine

def exec (i : Instr) (s : State) : Host.Outcome State Fault Refusal :=
  match i with
  | .nop => Sys2Proof.Machine.execNop s
  | .ofs off => Sys2Proof.Machine.execOfs off s
  | .ld8 off => Sys2Proof.Machine.execLd8 off s
  | .ld16 off => Sys2Proof.Machine.execLd16 off s
  | .ld32 off => Sys2Proof.Machine.execLd32 off s
  | .st8 off => Sys2Proof.Machine.execSt8 off s
  | .st16 off => Sys2Proof.Machine.execSt16 off s
  | .st32 off => Sys2Proof.Machine.execSt32 off s
  | .fld8 w sh off => Sys2Proof.Machine.execFld8 w sh off s
  | .fld16 w sh off => Sys2Proof.Machine.execFld16 w sh off s
  | .fld32 w sh off => Sys2Proof.Machine.execFld32 w sh off s
  | .fst8 w sh off => Sys2Proof.Machine.execFst8 w sh off s
  | .fst16 w sh off => Sys2Proof.Machine.execFst16 w sh off s
  | .fst32 w sh off => Sys2Proof.Machine.execFst32 w sh off s
  | .fmsk w sh => Sys2Proof.Machine.execFmsk w sh s
  | .fext w sh => Sys2Proof.Machine.execFext w sh s
  | .fins w sh => Sys2Proof.Machine.execFins w sh s
  | .phclr => Sys2Proof.Machine.execPhclr s
  | .phb8 => Sys2Proof.Machine.execPhb8 s
  | .phb16 => Sys2Proof.Machine.execPhb16 s
  | .phb32 => Sys2Proof.Machine.execPhb32 s
  | .phcpy n off => Sys2Proof.Machine.execPhcpy n off s
  | .ph4 => Sys2Proof.Machine.execPh4 s
  | .ph6 => Sys2Proof.Machine.execPh6 s
  | .cksum p fld => Sys2Proof.Machine.execCksum p fld s
  | .ckver p fld => Sys2Proof.Machine.execCkver p fld s
  | .ckapp p fld => Sys2Proof.Machine.execCkapp p fld s
  | .ckclr fld => Sys2Proof.Machine.execCkclr fld s

end Sys2Proof.Machine
end

