-- ==== Sys2Proof/Machine/HostPort.lean ====
section
/-! DEFINITION. What a host operation does: the CMD port, the register map, the memory port and the reset event (spec
10_state.md R24 to R40, 20_memory.md R52, 30_encoding.md R70, 70_reset_and_hazards.md R220). -/

namespace Sys2Proof.Machine

/-- Byte offset of CMD in the register space (R24). -/
def cmdOffset : Nat := 0x00

/-- The register space's size in bytes (R24). -/
def registerSpaceBytes : Nat := 128

/-- PHBUFk: PHBUF bytes 4k to 4k+3, big-endian (R36). -/
def State.phbufWord (s : State) (k : Nat) : Word :=
  BitVec.ofNat 32 (beValue [s.phByte (4 * k), s.phByte (4 * k + 1), s.phByte (4 * k + 2), s.phByte (4 * k + 3)])

/-- A register read at an aligned offset of the register space (the map of R24; R25 to R37). CMD, ECLR and the reserved
offsets read 0. -/
def State.readRegister (s : State) (off : Nat) : Word :=
  match off with
  | 0x04 => s.status
  | 0x08 => s.base
  | 0x0C => s.wdata
  | 0x10 => s.rdata
  | 0x14 => s.ckEnd
  | 0x18 => BitVec.ofNat 32 s.ckSum.toNat
  | 0x1C => BitVec.ofNat 32 s.phLen
  | 0x20 => s.bufLen
  | 0x24 => s.errcmd
  | 0x28 => s.erraddr
  | _ => if 0x40 ≤ off ∧ off ≤ 0x64 then s.phbufWord ((off - 0x40) / 4) else 0

/-- A host write of `v` to CMD: discarded undecoded while locked; an illegal word raises ILLEGAL; else the command runs
(R70, R193, R198). -/
def issueCommand (v : Word) (s : State) : Host.Outcome State Fault Refusal :=
  if s.locked then .next s
  else
    match decode v with
    | .command i => exec i s
    | .illegal _ => .next (s.raise ⟨.illegal, 0⟩ v)

/-- A register write at an aligned offset of the register space: CMD, BASE, WDATA, CK_END and ECLR take it, every other
offset ignores it (R24, R35, R37, R40). -/
def writeRegister (off : Nat) (v : Word) (s : State) : Host.Outcome State Fault Refusal :=
  match off with
  | 0x00 => issueCommand v s
  | 0x08 => .next (s.setBase v)
  | 0x0C => .next (s.setWdata v)
  | 0x14 => .next (s.setCkEnd v)
  | 0x2C => .next s.clearError
  | _ => .next s

/-- A register access reaches the map only if it is 32 bits wide and at a multiple of 4, and inside the register space
(R24, R38; log 8, log 14). -/
def registerAccess (width off : Nat) (s : State) (f : State → Host.Outcome State Fault Refusal) :
    Host.Outcome State Fault Refusal :=
  if width = 32 ∧ off % 4 = 0 then
    if off < registerSpaceBytes then f s else .fault .outsideRegisterSpace
  else .refused .oddRegisterAccess

/-- A memory port access reaches MEM only below BUF_LEN (R50, R52; log 7). -/
def memoryAccess (a : Nat) (s : State) (f : State → Host.Outcome State Fault Refusal) :
    Host.Outcome State Fault Refusal :=
  if a < s.bufLen.toNat then f s else .fault .outsidePacketBuffer

/-- One host operation (R62: all of them form one total order). -/
def hostStep (op : HostOp) (s : State) : Host.Outcome State Fault Refusal :=
  match op with
  | .regWrite width off v => registerAccess width off s (writeRegister off v)
  | .regRead width off => registerAccess width off s fun s => .next (s.setReply (s.readRegister off))
  | .memWrite a b => memoryAccess a s fun s => .next (s.setByte a b)
  | .memRead a => memoryAccess a s fun s => .next (s.setReply (BitVec.ofNat 32 (s.byteAt a).toNat))
  | .reset => .next s.applyReset

/-- The host's next operation is performed; with none waiting, the engine is idle and nothing changes (R222, R211; log 5). -/
def hostNext (s : State) : Host.Outcome State Fault Refusal :=
  match s.pending with
  | [] => .next s
  | op :: rest => hostStep op (s.setPending rest)

/-- The host write that issues the command word of spec/opcode_table.json's bits `w` (R70, R71). -/
def commandWrite (nbits w : Nat) : HostOp := .regWrite 32 cmdOffset (BitVec.ofNat 32 (w % 2 ^ nbits))

end Sys2Proof.Machine
end

