-- ==== Sys2Proof/Machine/Assembly.lean ====
section
/-! DEFINITION. The lines of an ICFE program: commands, host operations and pseudo-instructions, and what each expands to
(spec 30_encoding.md R85, R86, R87). They add no state and no semantics beyond their expansion. -/

namespace Sys2Proof.Machine

/-- The registers a host line names (10_state.md R24). -/
inductive HostReg where
  | cmd | status | base | wdata | rdata | ckEnd | ckSum | phLen | bufLen | errcmd | erraddr | eclr
  | phbuf (k : Fin 10)
  deriving DecidableEq, Repr

/-- The `.8`, `.16` and `.32` of FLD, FST and the bit pseudo-instructions (R85, R87). -/
inductive Container where
  | c8 | c16 | c32
  deriving DecidableEq, Repr

/-- One line of a program (R85 to R87). -/
inductive Line where
  /-- a command: a host write of its encoding to CMD -/
  | command (i : Instr)
  /-- `WR REG, v`. R86 names BASE, WDATA, CK_END and ECLR as its registers and does not say what a line naming another
  register is; taking every register is the model's DESIGN CHOICE (log 19) -/
  | wr (r : HostReg) (v : Word)
  /-- `RD REG` -/
  | rd (r : HostReg)
  /-- `MEMW a: b0 b1 ...` -/
  | memw (a : Nat) (bs : List Byte)
  /-- `MEMR a, n` -/
  | memr (a n : Nat)
  | setbase (v : Word)
  | setend (v : Word)
  | ldw (v : Word)
  | bset (c : Container) (b off : Nat)
  | bclr (c : Container) (b off : Nat)
  | btst (c : Container) (b off : Nat)
  | errclr
  | movw (v : Word)
  deriving DecidableEq, Repr

/-- The byte offset of a register (10_state.md R24, R36). -/
def regOffset : HostReg → Nat
  | .cmd => cmdOffset
  | .status => 0x04
  | .base => 0x08
  | .wdata => 0x0C
  | .rdata => 0x10
  | .ckEnd => 0x14
  | .ckSum => 0x18
  | .phLen => 0x1C
  | .bufLen => 0x20
  | .errcmd => 0x24
  | .erraddr => 0x28
  | .eclr => 0x2C
  | .phbuf k => 0x40 + 4 * k.val

/-- `FLD.c W, S, off` (R85). -/
def fldCommand : Container → Nat → Nat → Nat → Instr
  | .c8 => .fld8
  | .c16 => .fld16
  | .c32 => .fld32

/-- `FST.c W, S, off` (R85). -/
def fstCommand : Container → Nat → Nat → Nat → Instr
  | .c8 => .fst8
  | .c16 => .fst16
  | .c32 => .fst32

/-- A 32-bit host write to a register. -/
def wrOp (r : HostReg) (v : Word) : HostOp := .regWrite 32 (regOffset r) v

/-- The host write that issues a command; refused if an operand does not fit (R85, R86). -/
def commandOps (i : Instr) : Option (List HostOp) := (assemble i).map fun v => [wrOp .cmd v]

/-- `MEMW`: one byte write per byte, at a, a+1, ... (R86). -/
def memwOps : Nat → List Byte → List HostOp
  | _, [] => []
  | a, b :: bs => .memWrite a b :: memwOps (a + 1) bs

/-- The host operations a line stands for; none where the assembler refuses it (R85, R86, R87). A WR line that names a
register R86 does not list is a plain host write to it: DESIGN CHOICE (log 19). -/
def expand : Line → Option (List HostOp)
  | .command i => commandOps i
  | .wr r v => some [wrOp r v]
  | .rd r => some [.regRead 32 (regOffset r)]
  | .memw a bs => some (memwOps a bs)
  | .memr a n => some ((List.range' a n).map .memRead)
  | .setbase v => some [wrOp .base v]
  | .setend v => some [wrOp .ckEnd v]
  | .ldw v => some [wrOp .wdata v]
  | .bset c b off => (commandOps (fstCommand c 1 b off)).map fun ops => wrOp .wdata 1 :: ops
  | .bclr c b off => (commandOps (fstCommand c 1 b off)).map fun ops => wrOp .wdata 0 :: ops
  | .btst c b off => commandOps (fldCommand c 1 b off)
  | .errclr => some [wrOp .eclr 0]
  | .movw v => (commandOps (.fext 32 0)).map fun ops => wrOp .wdata v :: ops

/-- A program: its lines in order; none if the assembler refuses one of them (R86). -/
def expandAll : List Line → Option (List HostOp)
  | [] => some []
  | l :: ls =>
    match expand l, expandAll ls with
    | some ops, some rest => some (ops ++ rest)
    | _, _ => none

end Sys2Proof.Machine
end

