-- ==== Sys2Proof/Machine/Step.lean ====
section
/-! DEFINITION. One step, and where the next command comes from. ICFE has no program counter and fetches nothing (spec
10_state.md R23): the host issues commands by writing CMD, so a step performs the host's next waiting operation. -/

namespace Sys2Proof.Machine

/-- One step of the machine. -/
def step (s : State) : Host.Outcome State Fault Refusal := hostNext s

/-- `s` with a host write of the command word to CMD as the operation the next step performs. A program is loaded from
outside the machine, as the host's operations (log 6). A locked engine discards the command, as the spec says (R198). -/
def State.withFetchWord (s : State) (nbits w : Nat) : State :=
  s.setPending (commandWrite nbits w :: s.pending)

/-- `s` with a whole program waiting. -/
def State.withProgram (s : State) (ops : List HostOp) : State := s.setPending (ops ++ s.pending)

end Sys2Proof.Machine
end

