-- ==== Sys2Proof/Safety.lean ====
section
/-! DEFINITION. The terms claims about ICFE are made in. They are written from the spec's tables and prose, and call the
model's meanings nowhere: the invariant, the formats of 30_encoding.md, which words are illegal, which checks a command
makes (20_memory.md R57, 60_exceptions.md R192), what it may write, and the checksum as 44_checksum.md defines it. -/

namespace Sys2Proof

/-! ## Encoding (30_encoding.md) -/

/-- `v` spells no command, and written to CMD while the engine is unlocked it raises ILLEGAL: code 1, the word itself,
address 0, and nothing else changes (R70, R193, R197). -/
def RaisesIllegal (v : Word) : Prop :=
  (∃ why, decode v = .illegal why) ∧
  ∀ (s : Machine.State) (rest : List Machine.HostOp), s.pending = .regWrite 32 0 v :: rest → s.err = 0 →
    Machine.step s = .next { s with pending := rest, err := 1, errcmd := v, erraddr := 0 }

/-- Every word with opcode `op` is a command of format N or raises ILLEGAL (R73, R83 a). -/
def FormatN (op : Nat) (i : Instr) : Prop :=
  ∀ v, bits v 31 26 = op →
    (bits v 25 0 = 0 → decode v = .command i) ∧ (bits v 25 0 ≠ 0 → RaisesIllegal v)

/-- Every word with opcode `op` is a command of format A or raises ILLEGAL (R74, R83 a). -/
def FormatA (op : Nat) (mk : Nat → Instr) : Prop :=
  ∀ v, bits v 31 26 = op →
    (bits v 25 16 = 0 → decode v = .command (mk (bits v 15 0))) ∧
    (bits v 25 16 ≠ 0 → RaisesIllegal v)

/-- Every word with opcode `op` is a command of format F in one of the three containers, or raises ILLEGAL with
cw = 0b11 (R75, R76, R83 b). -/
def FormatF (op : Nat) (mk8 mk16 mk32 : Nat → Nat → Nat → Instr) : Prop :=
  ∀ v, bits v 31 26 = op →
    (bits v 25 24 = 0b00 → decode v = .command (mk8 (bits v 23 19 + 1) (bits v 18 14) (bits v 13 0))) ∧
    (bits v 25 24 = 0b01 → decode v = .command (mk16 (bits v 23 19 + 1) (bits v 18 14) (bits v 13 0))) ∧
    (bits v 25 24 = 0b10 → decode v = .command (mk32 (bits v 23 19 + 1) (bits v 18 14) (bits v 13 0))) ∧
    (bits v 25 24 = 0b11 → RaisesIllegal v)

/-- Every word with opcode `op` is a register-only command of format F, or raises ILLEGAL (R77, R83 c). -/
def FormatFReg (op : Nat) (mk : Nat → Nat → Instr) : Prop :=
  ∀ v, bits v 31 26 = op →
    (bits v 25 24 = 0b10 → bits v 13 0 = 0 → decode v = .command (mk (bits v 23 19 + 1) (bits v 18 14))) ∧
    (bits v 25 24 ≠ 0b10 ∨ bits v 13 0 ≠ 0 → RaisesIllegal v)

/-- Every word with opcode `op` is a command of format P or raises ILLEGAL (R79, R83 a). -/
def FormatP (op : Nat) (mk : Nat → Nat → Instr) : Prop :=
  ∀ v, bits v 31 26 = op →
    (bits v 25 22 = 0 → decode v = .command (mk (bits v 21 16) (bits v 15 0))) ∧
    (bits v 25 22 ≠ 0 → RaisesIllegal v)

/-- Every word with opcode `op` is a command of format C or raises ILLEGAL (R80, R83 a). -/
def FormatC (op : Nat) (mk : Bool → Nat → Instr) : Prop :=
  ∀ v, bits v 31 26 = op →
    (bits v 24 16 = 0 → decode v = .command (mk (v.getLsbD 25) (bits v 15 0))) ∧
    (bits v 24 16 ≠ 0 → RaisesIllegal v)

/-- The words R82 and R83 call illegal: a reserved opcode; a reserved bit of the opcode's format; cw = 0b11 in format F;
FMSK, FEXT or FINS with cw != 0b10 or off14 != 0. -/
def IllegalWord (v : Word) : Prop :=
  let op := bits v 31 26
  (0x0D ≤ op ∧ op ≤ 0x0F) ∨ (0x17 ≤ op ∧ op ≤ 0x1F) ∨ 0x24 ≤ op ∨
  (op ∈ [0x00, 0x10, 0x11, 0x12, 0x13, 0x15, 0x16] ∧ bits v 25 0 ≠ 0) ∨
  (op ∈ [0x01, 0x02, 0x03, 0x04, 0x05, 0x06, 0x07] ∧ bits v 25 16 ≠ 0) ∨
  (op = 0x14 ∧ bits v 25 22 ≠ 0) ∨
  (op ∈ [0x20, 0x21, 0x22, 0x23] ∧ bits v 24 16 ≠ 0) ∨
  (op = 0x23 ∧ bits v 25 25 ≠ 0) ∨
  (op ∈ [0x08, 0x09, 0x0A, 0x0B, 0x0C] ∧ bits v 25 24 = 0b11) ∨
  (op ∈ [0x0A, 0x0B, 0x0C] ∧ (bits v 25 24 ≠ 0b10 ∨ bits v 13 0 ≠ 0))

/-- spec/opcode_table.json's row of a command: its (match, mask). -/
def tableRow : Instr → Word × Word
  | .nop => (0x00000000, 0xFFFFFFFF)
  | .ofs _ => (0x04000000, 0xFFFF0000)
  | .ld8 _ => (0x08000000, 0xFFFF0000)
  | .ld16 _ => (0x0C000000, 0xFFFF0000)
  | .ld32 _ => (0x10000000, 0xFFFF0000)
  | .st8 _ => (0x14000000, 0xFFFF0000)
  | .st16 _ => (0x18000000, 0xFFFF0000)
  | .st32 _ => (0x1C000000, 0xFFFF0000)
  | .fld8 _ _ _ => (0x20000000, 0xFF000000)
  | .fld16 _ _ _ => (0x21000000, 0xFF000000)
  | .fld32 _ _ _ => (0x22000000, 0xFF000000)
  | .fst8 _ _ _ => (0x24000000, 0xFF000000)
  | .fst16 _ _ _ => (0x25000000, 0xFF000000)
  | .fst32 _ _ _ => (0x26000000, 0xFF000000)
  | .fmsk _ _ => (0x2A000000, 0xFF003FFF)
  | .fext _ _ => (0x2E000000, 0xFF003FFF)
  | .fins _ _ => (0x32000000, 0xFF003FFF)
  | .phclr => (0x40000000, 0xFFFFFFFF)
  | .phb8 => (0x44000000, 0xFFFFFFFF)
  | .phb16 => (0x48000000, 0xFFFFFFFF)
  | .phb32 => (0x4C000000, 0xFFFFFFFF)
  | .phcpy _ _ => (0x50000000, 0xFFC00000)
  | .ph4 => (0x54000000, 0xFFFFFFFF)
  | .ph6 => (0x58000000, 0xFFFFFFFF)
  | .cksum _ _ => (0x80000000, 0xFDFF0000)
  | .ckver _ _ => (0x84000000, 0xFDFF0000)
  | .ckapp _ _ => (0x88000000, 0xFDFF0000)
  | .ckclr _ => (0x8C000000, 0xFFFF0000)

end Sys2Proof

namespace Sys2Proof.Machine

/-! ## The invariant -/

/-- What every state a run can reach satisfies. -/
structure State.Inv (s : State) : Prop where
  /-- MEM is in its canonical form -/
  memCanonical : Memory.wf s.mem = true
  /-- MEM has no byte at or beyond BUF_LEN (R50) -/
  memInBuffer : ∀ c ∈ s.mem, c.1 < s.bufLen.toNat
  /-- PH_LEN is 0..40 (R31) -/
  phRoom : s.phLen ≤ 40
  /-- PHBUF holds no stale byte at or beyond PH_LEN (R36) -/
  phClean : ∀ i, s.phLen ≤ i → s.phByte i = 0
  /-- error codes 6 to 15 are never produced (R25, R192) -/
  errCode : s.err.toNat ≤ 5
  /-- ERRCMD and ERRADDR are 0 while ERR = 0 (R33, R34) -/
  latchClear : s.err = 0 → s.errcmd = 0 ∧ s.erraddr = 0
  /-- ERRADDR is 0 for every code but BOUNDS (R34) -/
  addrOnlyForBounds : s.err ≠ 5 → s.erraddr = 0
  /-- with BOUNDS, ERRADDR is an address outside the buffer, or saturated (R196) -/
  addrOutside : s.err = 5 → s.bufLen.toNat ≤ s.erraddr.toNat
  /-- ERRCMD is a word that raises the latched error: illegal exactly for code ILLEGAL (R33, R193) -/
  latchedWord : s.err ≠ 0 → (s.err = 1 ↔ ∃ why, decode s.errcmd = .illegal why)

/-! ## Errors (60_exceptions.md) -/

/-- `i` at `s` raises `code`: the latch takes the code, the command's word and the address, and nothing else changes
(R197). -/
def Raises (i : Instr) (s : State) (code : BitVec 4) (addr : Word) : Prop :=
  exec i s = .next { s with err := code, errcmd := encode i, erraddr := addr }

/-- `InBounds(a, n)` (00_scope.md R12). -/
def InBounds (s : State) (a n : Nat) : Prop := n = 0 ∨ a + n ≤ s.bufLen.toNat

/-- The operands (W, S, cbits) of a format F command (42_bitfield.md R120, R121). -/
def fieldOperands : Instr → Option (Nat × Nat × Nat)
  | .fld8 w sh _ => some (w, sh, 8)
  | .fld16 w sh _ => some (w, sh, 16)
  | .fld32 w sh _ => some (w, sh, 32)
  | .fst8 w sh _ => some (w, sh, 8)
  | .fst16 w sh _ => some (w, sh, 16)
  | .fst32 w sh _ => some (w, sh, 32)
  | .fmsk w sh => some (w, sh, 32)
  | .fext w sh => some (w, sh, 32)
  | .fins w sh => some (w, sh, 32)
  | _ => none

/-- FIELD applies (R194). -/
def FieldFails (i : Instr) : Prop := ∃ w sh cbits, fieldOperands i = some (w, sh, cbits) ∧ cbits < w + sh

/-- The commands that sum a range (R195). -/
def sumsRange : Instr → Bool
  | .cksum _ _ => true
  | .ckver _ _ => true
  | .ckapp _ _ => true
  | _ => false

/-- RANGE applies (R195). -/
def RangeFails (i : Instr) (s : State) : Prop := sumsRange i = true ∧ s.ckEnd.toNat < s.base.toNat

/-- How many bytes an append adds to the pseudo-header (R199). -/
def appendedBytes : Instr → Option Nat
  | .phb8 => some 1
  | .phb16 => some 2
  | .phb32 => some 4
  | .phcpy n _ => some n
  | _ => none

/-- PHOVF applies (R199). -/
def RoomFails (i : Instr) (s : State) : Prop := ∃ k, appendedBytes i = some k ∧ 40 < s.phLen + k

/-- The spans (a, n) a command checks, in order: the last column of 20_memory.md R57's table. -/
def checkedSpans (i : Instr) (s : State) : List (Nat × Nat) :=
  match i with
  | .ld8 off => [(s.base.toNat + off, 1)]
  | .ld16 off => [(s.base.toNat + off, 2)]
  | .ld32 off => [(s.base.toNat + off, 4)]
  | .st8 off => [(s.base.toNat + off, 1)]
  | .st16 off => [(s.base.toNat + off, 2)]
  | .st32 off => [(s.base.toNat + off, 4)]
  | .fld8 _ _ off => [(s.base.toNat + off, 1)]
  | .fld16 _ _ off => [(s.base.toNat + off, 2)]
  | .fld32 _ _ off => [(s.base.toNat + off, 4)]
  | .fst8 _ _ off => [(s.base.toNat + off, 1)]
  | .fst16 _ _ off => [(s.base.toNat + off, 2)]
  | .fst32 _ _ off => [(s.base.toNat + off, 4)]
  | .phcpy n off => [(s.base.toNat + off, n)]
  | .ph4 => [(s.base.toNat, 20)]
  | .ph6 => [(s.base.toNat, 40)]
  | .cksum _ fld => [(s.base.toNat, s.ckEnd.toNat - s.base.toNat), (s.base.toNat + fld, 2)]
  | .ckver _ fld => [(s.base.toNat, s.ckEnd.toNat - s.base.toNat), (s.base.toNat + fld, 2)]
  | .ckapp _ fld => [(s.base.toNat, s.ckEnd.toNat - s.base.toNat), (s.base.toNat + fld, 2)]
  | .ckclr fld => [(s.base.toNat + fld, 2)]
  | _ => []

/-- BOUNDS applies, and (a, n) is the first span that is not in bounds (R196). -/
def BoundsFailsAt (i : Instr) (s : State) (a n : Nat) : Prop :=
  ∃ before after, checkedSpans i s = before ++ (a, n) :: after ∧
    (∀ sp ∈ before, InBounds s sp.1 sp.2) ∧ ¬ InBounds s a n

/-- None of FIELD, RANGE and PHOVF applies. -/
def NoEarlierError (i : Instr) (s : State) : Prop := ¬ FieldFails i ∧ ¬ RangeFails i s ∧ ¬ RoomFails i s

/-! ## What a command touches -/

/-- MEM byte `a` is one `i` reads (20_memory.md R57, "reads MEM"). -/
def ReadsByte (i : Instr) (s : State) (a : Nat) : Prop :=
  match i with
  | .ld8 off => a = s.base.toNat + off
  | .ld16 off => s.base.toNat + off ≤ a ∧ a < s.base.toNat + off + 2
  | .ld32 off => s.base.toNat + off ≤ a ∧ a < s.base.toNat + off + 4
  | .fld8 _ _ off => a = s.base.toNat + off
  | .fld16 _ _ off => s.base.toNat + off ≤ a ∧ a < s.base.toNat + off + 2
  | .fld32 _ _ off => s.base.toNat + off ≤ a ∧ a < s.base.toNat + off + 4
  | .fst8 _ _ off => a = s.base.toNat + off
  | .fst16 _ _ off => s.base.toNat + off ≤ a ∧ a < s.base.toNat + off + 2
  | .fst32 _ _ off => s.base.toNat + off ≤ a ∧ a < s.base.toNat + off + 4
  | .phcpy n off => s.base.toNat + off ≤ a ∧ a < s.base.toNat + off + n
  | .ph4 => s.base.toNat ≤ a ∧ a < s.base.toNat + 20
  | .ph6 => s.base.toNat ≤ a ∧ a < s.base.toNat + 40
  | .cksum _ fld =>
    s.base.toNat ≤ a ∧ a < s.ckEnd.toNat ∧ a ≠ s.base.toNat + fld ∧ a ≠ s.base.toNat + fld + 1
  | .ckver _ fld =>
    (s.base.toNat ≤ a ∧ a < s.ckEnd.toNat) ∨ a = s.base.toNat + fld ∨ a = s.base.toNat + fld + 1
  | .ckapp _ fld =>
    s.base.toNat ≤ a ∧ a < s.ckEnd.toNat ∧ a ≠ s.base.toNat + fld ∧ a ≠ s.base.toNat + fld + 1
  | _ => False

/-- MEM byte `a` is one `i` writes (R57, "writes MEM"). -/
def WritesByte (i : Instr) (s : State) (a : Nat) : Prop :=
  match i with
  | .st8 off => a = s.base.toNat + off
  | .st16 off => s.base.toNat + off ≤ a ∧ a < s.base.toNat + off + 2
  | .st32 off => s.base.toNat + off ≤ a ∧ a < s.base.toNat + off + 4
  | .fst8 _ _ off => a = s.base.toNat + off
  | .fst16 _ _ off => s.base.toNat + off ≤ a ∧ a < s.base.toNat + off + 2
  | .fst32 _ _ off => s.base.toNat + off ≤ a ∧ a < s.base.toNat + off + 4
  | .ckapp _ fld => s.base.toNat + fld ≤ a ∧ a < s.base.toNat + fld + 2
  | .ckclr fld => s.base.toNat + fld ≤ a ∧ a < s.base.toNat + fld + 2
  | _ => False

/-- The commands whose result goes to RDATA (10_state.md R28). -/
def writesRdata : Instr → Bool
  | .ofs _ | .ld8 _ | .ld16 _ | .ld32 _ => true
  | .fld8 _ _ _ | .fld16 _ _ _ | .fld32 _ _ _ => true
  | .fmsk _ _ | .fext _ _ | .fins _ _ => true
  | .cksum _ _ | .ckver _ _ | .ckapp _ _ => true
  | _ => false

/-- The commands that write PHBUF and PH_LEN (10_state.md R31, R41). -/
def writesPseudoHeader : Instr → Bool
  | .phclr | .phb8 | .phb16 | .phb32 | .phcpy _ _ | .ph4 | .ph6 => true
  | _ => false

/-! ## Bit fields (42_bitfield.md R120) -/

/-- A container's size in bytes. -/
def containerBytes : Container → Nat
  | .c8 => 1
  | .c16 => 2
  | .c32 => 4

/-- Bit `j` (0 the least significant) of the `c`-byte big-endian container at `a`. -/
def containerBit (m : Memory) (a c j : Nat) : Bool := (Memory.readByte m (a + (c - 1 - j / 8))).getLsbD (j % 8)

/-! ## The checksum (44_checksum.md) -/

/-- The stream of R161, byte by byte: the pseudo-header's bytes if P, then the main range with the field bytes as 0
(R162). -/
def specStream (s : State) (p : Bool) (fld : Nat) : List Byte :=
  let ph := if p then min s.phLen 40 else 0
  (List.range (ph + (s.ckEnd.toNat - s.base.toNat))).map fun i =>
    if i < ph then s.phByte i
    else
      let a := s.base.toNat + (i - ph)
      if a = s.base.toNat + fld ∨ a = s.base.toNat + fld + 1 then 0 else s.byteAt a

/-- `word_k` of R161: a byte past the end counts as 0. -/
def streamWord (l : List Byte) (k : Nat) : Nat := (l.getD (2 * k) 0).toNat * 256 + (l.getD (2 * k + 1) 0).toNat

/-- The words of a stream, ceil(n/2) of them (R161). -/
def streamWords (l : List Byte) : List Nat := (List.range ((l.length + 1) / 2)).map (streamWord l)

/-- `n` is the ones'-complement sum of the words of `l`: the one number below 2^16 that is congruent to their exact sum
modulo 0xFFFF and is 0 exactly when the sum is (R163). -/
def IsOnesSum (l : List Byte) (n : Nat) : Prop :=
  n ≤ 0xFFFF ∧ n % 0xFFFF = (streamWords l).sum % 0xFFFF ∧ (n = 0 ↔ (streamWords l).sum = 0)

/-- One step of a 16-bit accumulator with end-around carry (R165). -/
def endAroundAdd (acc word : Nat) : Nat := if acc + word > 0xFFFF then acc + word - 0xFFFF else acc + word

/-- A 16-bit accumulator with end-around carry over words in order (R165). -/
def endAroundSum (words : List Nat) : Nat := words.foldl endAroundAdd 0

/-- No check of CKSUM, CKVER and CKAPP but the lock and ILLEGAL fails (R160). -/
def ChecksumPasses (s : State) (fld : Nat) : Prop :=
  s.base.toNat ≤ s.ckEnd.toNat ∧ (s.base.toNat = s.ckEnd.toNat ∨ s.ckEnd.toNat ≤ s.bufLen.toNat) ∧
    s.absAddr fld + 2 ≤ s.bufLen.toNat

/-- The errors of CKSUM, CKVER and CKAPP in the order of R160: RANGE, BOUNDS of the range, BOUNDS of the field. -/
def ChecksumErrors (i : Instr) (s : State) (fld : Nat) : Prop :=
  (s.ckEnd.toNat < s.base.toNat → Raises i s 3 0) ∧
  (s.base.toNat < s.ckEnd.toNat → s.bufLen.toNat < s.ckEnd.toNat → Raises i s 5 (s.boundsAddr s.base.toNat)) ∧
  (s.base.toNat ≤ s.ckEnd.toNat → (s.base.toNat = s.ckEnd.toNat ∨ s.ckEnd.toNat ≤ s.bufLen.toNat) →
    s.bufLen.toNat < s.absAddr fld + 2 → Raises i s 5 (s.boundsAddr (s.absAddr fld)))

/-- The number in the two bytes of the checksum field (R172). -/
def storedField (s : State) (f : Nat) : Nat := (s.byteAt f).toNat * 256 + (s.byteAt (f + 1)).toNat

/-! ## The host's port -/

/-- A host read at `off` returns `v` and changes nothing else (R39). -/
def ReadsAs (s : State) (off : Nat) (v : Word) : Prop :=
  ∀ rest, step { s with pending := .regRead 32 off :: rest } = .next { s with pending := rest, reply := some v }

/-- A host write of `v` at `off` makes `t` of `s`. -/
def WritesTo (s : State) (off : Nat) (v : Word) (t : State) : Prop :=
  ∀ rest, step { s with pending := .regWrite 32 off v :: rest } = .next { t with pending := rest }

end Sys2Proof.Machine
end

