-- ==== Sys2Proof/Certificates/Slice0/Obligations.lean ====
section
/-! DEFINITION. The statements for the provers, one `def Obligations.<Name> : Prop` each; OBLIGATIONS.json lists them.
Each says what a numbered rule of the spec says, in the terms of Sys2Proof/Safety.lean. -/

open Sys2Proof Sys2Proof.Machine

/-! ## Encoding -/

/-- Decoding an encoded well-formed command gives it back, every operand at every value (30_encoding.md R73 to R80). -/
def Obligations.DecodeOfEncode : Prop :=
  ∀ i : Instr, i.WellFormed → decode (encode i) = .command i

/-- A word that decodes is the encoding of the command it decodes to, which is well-formed: each command has one word
(R83: exactly one command). -/
def Obligations.EncodeOfDecode : Prop :=
  ∀ (v : Word) (i : Instr), decode v = .command i → i.WellFormed ∧ encode i = v

/-- Every legal word matches its own row of spec/opcode_table.json and the row of no other command, and an illegal word
matches no row. -/
def Obligations.LegalWordsMatchOneTableRow : Prop :=
  ∀ v : Word,
    (∀ i, decode v = .command i →
      v &&& (tableRow i).2 = (tableRow i).1 ∧
      ∀ j : Instr, v &&& (tableRow j).2 = (tableRow j).1 → tableRow j = tableRow i) ∧
    ((∃ why, decode v = .illegal why) → ∀ j : Instr, v &&& (tableRow j).2 ≠ (tableRow j).1)

/-- The words R82 and R83 name, and no others, are illegal, and one of them written to CMD while the engine is unlocked
raises ILLEGAL: code 1, the word, address 0, nothing else; every other word is one command (R82, R83, R193). -/
def Obligations.ReservedWordsRaiseIllegal : Prop :=
  ∀ v : Word, (IllegalWord v → RaisesIllegal v) ∧ (¬ IllegalWord v → ∃ i, decode v = .command i)

/-- The worked encodings of R88, both ways. -/
def Obligations.WorkedEncodings : Prop :=
  (encode (.ld16 2) = 0x0C000002 ∧ decode 0x0C000002 = .command (.ld16 2)) ∧
  (encode (.fld8 4 4 0) = 0x20190000 ∧ decode 0x20190000 = .command (.fld8 4 4 0)) ∧
  (encode (.fst16 13 0 6) = 0x25600006 ∧ decode 0x25600006 = .command (.fst16 13 0 6)) ∧
  (encode (.phcpy 16 8) = 0x50100008 ∧ decode 0x50100008 = .command (.phcpy 16 8)) ∧
  (encode (.ckapp true 6) = 0x8A000006 ∧ decode 0x8A000006 = .command (.ckapp true 6)) ∧
  (encode (.ckver false 10) = 0x8400000A ∧ decode 0x8400000A = .command (.ckver false 10)) ∧
  (encode (.fmsk 13 0) = 0x2A600000 ∧ decode 0x2A600000 = .command (.fmsk 13 0))

/-! ## The machine -/

/-- A step on a waiting host write of `v` to CMD, the engine unlocked and `v` a command, is `exec` of that command at the
state with the write taken off the queue (R70). -/
def Obligations.CmdWriteRunsDecodedCommand : Prop :=
  ∀ (s : State) (v : Word) (i : Instr) (rest : List HostOp),
    s.pending = .regWrite 32 0 v :: rest → s.err = 0 → decode v = .command i →
    step s = exec i { s with pending := rest }

/-- While ERR != 0: any word written to CMD, legal or not, changes nothing, and so does any command; the host's register
and MEM accesses still work (R198). -/
def Obligations.LockedEngineDiscardsCommands : Prop :=
  ∀ s : State, s.err ≠ 0 →
    (∀ v, WritesTo s 0x00 v s) ∧ (∀ i, exec i s = .next s) ∧
    (∀ v, WritesTo s 0x08 v { s with base := v }) ∧ (∀ v, WritesTo s 0x0C v { s with wdata := v }) ∧
    (∀ v, WritesTo s 0x14 v { s with ckEnd := v }) ∧ ReadsAs s 0x10 s.rdata ∧
    (∀ v, WritesTo s 0x2C v { s with err := 0, errcmd := 0, erraddr := 0 }) ∧
    (∀ a b rest, a < s.bufLen.toNat →
      step { s with pending := .memWrite a b :: rest } =
        .next { s with pending := rest, mem := Memory.writeByte s.mem a b }) ∧
    (∀ a rest, a < s.bufLen.toNat →
      step { s with pending := .memRead a :: rest } =
        .next { s with pending := rest, reply := some ((s.byteAt a).setWidth 32) })

/-- When a word written to CMD raises an error in an unlocked engine, ERRCMD is that very word, ERRADDR is 0 unless the
code is BOUNDS, and nothing but the latch changes (R197). -/
def Obligations.ErrorLatchRecordsWord : Prop :=
  ∀ (s t : State) (v : Word) (rest : List HostOp),
    s.pending = .regWrite 32 0 v :: rest → s.err = 0 → step s = .next t → t.err ≠ 0 →
    t = { s with pending := rest, err := t.err, errcmd := v, erraddr := t.erraddr } ∧
    (t.err ≠ 5 → t.erraddr = 0)

/-- What a host read of each register returns, and that it changes nothing but the host's reply (R39, and the read side of
R24 to R36). -/
def Obligations.HostReadsReturnRegisters : Prop :=
  ∀ s : State,
    ReadsAs s 0x00 0 ∧
    (∃ v, ReadsAs s 0x04 v ∧ v.toNat = s.err.toNat + (if s.vok then 256 else 0)) ∧
    ReadsAs s 0x08 s.base ∧ ReadsAs s 0x0C s.wdata ∧ ReadsAs s 0x10 s.rdata ∧ ReadsAs s 0x14 s.ckEnd ∧
    ReadsAs s 0x18 (s.ckSum.setWidth 32) ∧ ReadsAs s 0x1C (BitVec.ofNat 32 s.phLen) ∧ ReadsAs s 0x20 s.bufLen ∧
    ReadsAs s 0x24 s.errcmd ∧ ReadsAs s 0x28 s.erraddr ∧ ReadsAs s 0x2C 0 ∧
    (∀ k < 10, ReadsAs s (0x40 + 4 * k)
      (s.phByte (4 * k) ++ s.phByte (4 * k + 1) ++ s.phByte (4 * k + 2) ++ s.phByte (4 * k + 3))) ∧
    ∀ off < 128, off % 4 = 0 → ∃ v, ReadsAs s off v

/-- Host writes: BASE, WDATA and CK_END take any value, locked or not (R40); ECLR clears the latch and nothing else (R35);
reserved offsets read 0 and ignore writes, read-only registers ignore writes (R37). -/
def Obligations.HostWritesReachRegisters : Prop :=
  ∀ (s : State) (v : Word),
    WritesTo s 0x08 v { s with base := v } ∧ WritesTo s 0x0C v { s with wdata := v } ∧
    WritesTo s 0x14 v { s with ckEnd := v } ∧
    WritesTo s 0x2C v { s with err := 0, errcmd := 0, erraddr := 0 } ∧ ReadsAs s 0x2C 0 ∧
    (∀ off ∈ [0x30, 0x34, 0x38, 0x3C, 0x68, 0x6C, 0x70, 0x74, 0x78, 0x7C], ReadsAs s off 0 ∧ WritesTo s off v s) ∧
    (∀ off ∈ [0x04, 0x10, 0x18, 0x1C, 0x20, 0x24, 0x28], WritesTo s off v s) ∧
    ∀ k < 10, WritesTo s (0x40 + 4 * k) v s

/-- A host register access of another width than 32 bits, or at an offset that is not a multiple of 4, is refused (R38).
At such an offset at or beyond 128, that it is refused and not faulted is the model's choice (log 14, DESIGN CHOICE). -/
def Obligations.OddRegisterAccessRefused : Prop :=
  ∀ (s : State) (width off : Nat) (v : Word) (rest : List HostOp), width ≠ 32 ∨ off % 4 ≠ 0 →
    step { s with pending := .regWrite width off v :: rest } = .refused .oddRegisterAccess ∧
    step { s with pending := .regRead width off :: rest } = .refused .oddRegisterAccess

/-- The host's memory port: a byte written is the byte later read, no other byte and no register changes, and a read
returns the byte and changes nothing (R52, R62). -/
def Obligations.HostMemoryPort : Prop :=
  ∀ (s : State) (a : Nat) (b : Byte) (rest : List HostOp), a < s.bufLen.toNat →
    (∃ m, step { s with pending := .memWrite a b :: rest } = .next { s with pending := rest, mem := m } ∧
      Memory.readByte m a = b ∧ ∀ c, c ≠ a → Memory.readByte m c = s.byteAt c) ∧
    step { s with pending := .memRead a :: rest } =
      .next { s with pending := rest, reply := some ((s.byteAt a).setWidth 32) }

/-- A host access outside the packet buffer or outside the register space faults, and with nothing waiting the engine
stays as it is. The model's choices of log 5, log 7 and log 8. -/
def Obligations.PortEdgesAndIdle : Prop :=
  (∀ s : State, s.pending = [] → step s = .next s) ∧
  (∀ (s : State) (a : Nat) (b : Byte) (rest : List HostOp), s.bufLen.toNat ≤ a →
    step { s with pending := .memWrite a b :: rest } = .fault .outsidePacketBuffer ∧
    step { s with pending := .memRead a :: rest } = .fault .outsidePacketBuffer) ∧
  ∀ (s : State) (off : Nat) (v : Word) (rest : List HostOp), 128 ≤ off → off % 4 = 0 →
    step { s with pending := .regWrite 32 off v :: rest } = .fault .outsideRegisterSpace ∧
    step { s with pending := .regRead 32 off :: rest } = .fault .outsideRegisterSpace

/-- The reset event: every register takes its reset value, all 40 bytes of PHBUF are 0, and MEM and BUF_LEN stay (R220,
R221). That the model's own fields `pending` (less the event) and `reply` stay is the model's inference (log 12, DEDUCED). -/
def Obligations.ResetEventResetsRegisters : Prop :=
  ∀ (s : State) (rest : List HostOp), ∃ t,
    step { s with pending := .reset :: rest } = .next t ∧
    t.base = 0 ∧ t.wdata = 0 ∧ t.rdata = 0 ∧ t.ckEnd = 0 ∧ t.ckSum = 0 ∧ t.errcmd = 0 ∧ t.erraddr = 0 ∧
    t.err = 0 ∧ t.vok = false ∧ t.phLen = 0 ∧ (∀ i < 40, t.phByte i = 0) ∧
    t.bufLen = s.bufLen ∧ t.mem = s.mem ∧ t.pending = rest ∧ t.reply = s.reply

/-- After power-up or reset, whatever BUF_LEN is and whatever MEM holds inside it, the invariant holds; so it holds of
`State.reset` (log 1 and log 2 name its BUF_LEN and MEM). -/
def Obligations.ResetStateMeetsInvariant : Prop :=
  (∀ (n : Word) (m : Memory), Memory.wf m = true → (∀ c ∈ m, c.1 < n.toNat) → (State.powerUp n m).Inv) ∧
  State.reset.Inv

/-- Every step from a state that meets the invariant gives a state that meets it: MEM canonical and inside BUF_LEN, PH_LEN
at most 40 and PHBUF clean beyond it, ERR at most 5, the latch clear while ERR = 0 and consistent while not. -/
def Obligations.StepKeepsInvariant : Prop :=
  ∀ s t : State, s.Inv → step s = .next t → t.Inv

/-- BUFLEN always reads BUF_LEN, and no step changes BUF_LEN (R32). -/
def Obligations.StepKeepsBufferLength : Prop :=
  (∀ s : State, ReadsAs s 0x20 s.bufLen) ∧ ∀ s t : State, step s = .next t → t.bufLen = s.bufLen

/-! ## Rules over all commands -/

/-- Every command terminates with a next state, in every state (R228); only the host's own port can stop the machine. -/
def Obligations.EveryCommandAnswersNext : Prop :=
  ∀ (i : Instr) (s : State), ∃ t, exec i s = .next t

/-- A failing command performs none of its effect: the latch is all that changes (R201). -/
def Obligations.ErrorsArePrecise : Prop :=
  ∀ (i : Instr) (s t : State), s.err = 0 → exec i s = .next t → t.err ≠ 0 →
    t = { s with err := t.err, errcmd := encode i, erraddr := t.erraddr }

/-- The check order of R200 for a word written to CMD: locked, ILLEGAL, FIELD, RANGE, PHOVF, BOUNDS; and a command for
which none applies succeeds. -/
def Obligations.OneErrorInCheckOrder : Prop :=
  ∀ (s : State) (v : Word) (rest : List HostOp), s.pending = .regWrite 32 0 v :: rest → ∃ t, step s = .next t ∧
    (s.err ≠ 0 → t = { s with pending := rest }) ∧
    (s.err = 0 → (∃ why, decode v = .illegal why) → t.err = 1) ∧
    ∀ i, s.err = 0 → decode v = .command i →
      (FieldFails i → t.err = 2) ∧
      (¬ FieldFails i → RangeFails i s → t.err = 3) ∧
      (¬ FieldFails i → ¬ RangeFails i s → RoomFails i s → t.err = 4) ∧
      (NoEarlierError i s → ∀ a n, BoundsFailsAt i s a n →
        t.err = 5 ∧ t.erraddr.toNat = min (max a s.bufLen.toNat) 0xFFFFFFFF) ∧
      (NoEarlierError i s → (∀ sp ∈ checkedSpans i s, InBounds s sp.1 sp.2) → t.err = 0)

/-- BOUNDS records, of the first span that is not in bounds, the lowest address outside the buffer, saturated at
0xFFFFFFFF (R196); addresses are exact, so none wraps (R56). -/
def Obligations.BoundsRecordsLowestAddress : Prop :=
  ∀ (i : Instr) (s : State) (a n : Nat), s.err = 0 → NoEarlierError i s → BoundsFailsAt i s a n →
    ∃ addr : Word, Raises i s 5 addr ∧ addr.toNat = min (max a s.bufLen.toNat) 0xFFFFFFFF

/-- No command writes BASE, WDATA or CK_END (R26, R27, R29), BUF_LEN (R32), or what is the host's. -/
def Obligations.CommandsKeepHostRegisters : Prop :=
  ∀ (i : Instr) (s t : State), exec i s = .next t →
    t.base = s.base ∧ t.wdata = s.wdata ∧ t.ckEnd = s.ckEnd ∧ t.bufLen = s.bufLen ∧
    t.pending = s.pending ∧ t.reply = s.reply

/-- Only a successful CKVER writes VOK (R25). -/
def Obligations.OnlyCkverWritesVok : Prop :=
  ∀ (i : Instr) (s t : State), exec i s = .next t →
    ((∀ p fld, i ≠ .ckver p fld) ∨ t.err ≠ 0) → t.vok = s.vok

/-- RDATA, CK_SUM, PHBUF and PH_LEN are written only by the commands R28, R30 and R31 name. -/
def Obligations.ResultsWrittenOnlyByTheirCommands : Prop :=
  ∀ (i : Instr) (s t : State), exec i s = .next t →
    (writesRdata i = false → t.rdata = s.rdata) ∧
    (sumsRange i = false → t.ckSum = s.ckSum) ∧
    (writesPseudoHeader i = false → t.phbuf = s.phbuf ∧ t.phLen = s.phLen)

/-- A command changes no byte of MEM but those R57 says it writes, and none at or beyond BUF_LEN (R56, R57). -/
def Obligations.CommandsWriteOnlyTheirBytes : Prop :=
  ∀ (i : Instr) (s t : State) (a : Nat), exec i s = .next t →
    (¬ WritesByte i s a ∨ s.bufLen.toNat ≤ a) → t.byteAt a = s.byteAt a

/-- What a command does depends on no byte of MEM but those R57 says it reads: from two states that differ in MEM only,
and agree on those bytes, it leaves the same registers, and a successful command leaves the same bytes where it writes. -/
def Obligations.CommandsReadOnlyTheirBytes : Prop :=
  ∀ (i : Instr) (s t : State) (m : Memory),
    (∀ a, ReadsByte i s a → Memory.readByte m a = s.byteAt a) → exec i s = .next t →
    ∃ t', exec i { s with mem := m } = .next t' ∧ t' = { t with mem := t'.mem } ∧
      (s.err = 0 → t.err = 0 → ∀ a, WritesByte i s a → t'.byteAt a = t.byteAt a)

/-! ## Control, offset composition and access -/

/-- NOP changes nothing, in every state (R100). -/
def Obligations.NopChangesNothing : Prop :=
  FormatN 0x00 .nop ∧ ∀ s : State, exec .nop s = .next s

/-- OFS puts BASE + off16 into RDATA, wrapping at 2^32, and changes nothing else; where the sum passes 2^32 a load or
store with the same operands raises BOUNDS instead (R102). -/
def Obligations.OfsComposesOffset : Prop :=
  FormatA 0x01 .ofs ∧
  ∀ (s : State) (off : Nat), s.err = 0 →
    (∃ v, exec (.ofs off) s = .next { s with rdata := v } ∧ v.toNat = (s.base.toNat + off) % 2 ^ 32) ∧
    (2 ^ 32 ≤ s.base.toNat + off →
      ∀ i ∈ [Instr.ld8 off, .ld16 off, .ld32 off, .st8 off, .st16 off, .st32 off], Raises i s 5 0xFFFFFFFF)

/-- LD8, LD16 and LD32 put the big-endian value at BASE + off, zero-extended, into RDATA and change nothing else, at any
alignment; a span that is not in bounds raises BOUNDS (R103, R104, R105). -/
def Obligations.LoadsReadBigEndian : Prop :=
  FormatA 0x02 .ld8 ∧ FormatA 0x03 .ld16 ∧ FormatA 0x04 .ld32 ∧
  ∀ (s : State) (off a : Nat), s.err = 0 → a = s.base.toNat + off →
    (a + 1 ≤ s.bufLen.toNat → ∃ v, exec (.ld8 off) s = .next { s with rdata := v } ∧ v.toNat = (s.byteAt a).toNat) ∧
    (a + 2 ≤ s.bufLen.toNat → ∃ v, exec (.ld16 off) s = .next { s with rdata := v } ∧
      v.toNat = (s.byteAt a).toNat * 2 ^ 8 + (s.byteAt (a + 1)).toNat) ∧
    (a + 4 ≤ s.bufLen.toNat → ∃ v, exec (.ld32 off) s = .next { s with rdata := v } ∧
      v.toNat = (s.byteAt a).toNat * 2 ^ 24 + (s.byteAt (a + 1)).toNat * 2 ^ 16 +
        (s.byteAt (a + 2)).toNat * 2 ^ 8 + (s.byteAt (a + 3)).toNat) ∧
    (s.bufLen.toNat < a + 1 → Raises (.ld8 off) s 5 (BitVec.ofNat 32 (min a 0xFFFFFFFF))) ∧
    (s.bufLen.toNat < a + 2 → Raises (.ld16 off) s 5 (BitVec.ofNat 32 (min (max a s.bufLen.toNat) 0xFFFFFFFF))) ∧
    (s.bufLen.toNat < a + 4 → Raises (.ld32 off) s 5 (BitVec.ofNat 32 (min (max a s.bufLen.toNat) 0xFFFFFFFF)))

/-- ST8, ST16 and ST32 write WDATA's low 1, 2 and 4 bytes big-endian at BASE + off, change no other byte of MEM and no
register, and LD32 reads back what ST32 wrote; a span that is not in bounds raises BOUNDS and writes nothing (R106, R107,
R108). -/
def Obligations.StoresWriteBigEndian : Prop :=
  FormatA 0x05 .st8 ∧ FormatA 0x06 .st16 ∧ FormatA 0x07 .st32 ∧
  ∀ (s : State) (off a : Nat), s.err = 0 → s.absAddr off = a →
    a = s.base.toNat + off ∧
    (a + 1 ≤ s.bufLen.toNat → ∃ m, exec (.st8 off) s = .next { s with mem := m } ∧
      Memory.readByte m a = s.wdata.extractLsb' 0 8 ∧
      ∀ b, b ≠ a → Memory.readByte m b = s.byteAt b) ∧
    (a + 2 ≤ s.bufLen.toNat → ∃ m, exec (.st16 off) s = .next { s with mem := m } ∧
      Memory.readByte m a = s.wdata.extractLsb' 8 8 ∧ Memory.readByte m (a + 1) = s.wdata.extractLsb' 0 8 ∧
      ∀ b, b < a ∨ a + 2 ≤ b → Memory.readByte m b = s.byteAt b) ∧
    (a + 4 ≤ s.bufLen.toNat → ∃ m, exec (.st32 off) s = .next { s with mem := m } ∧
      Memory.readByte m a = s.wdata.extractLsb' 24 8 ∧ Memory.readByte m (a + 1) = s.wdata.extractLsb' 16 8 ∧
      Memory.readByte m (a + 2) = s.wdata.extractLsb' 8 8 ∧ Memory.readByte m (a + 3) = s.wdata.extractLsb' 0 8 ∧
      (∀ b, b < a ∨ a + 4 ≤ b → Memory.readByte m b = s.byteAt b) ∧
      exec (.ld32 off) { s with mem := m } = .next { s with mem := m, rdata := s.wdata }) ∧
    (s.bufLen.toNat < a + 1 → Raises (.st8 off) s 5 (s.boundsAddr a)) ∧
    (s.bufLen.toNat < a + 2 → Raises (.st16 off) s 5 (s.boundsAddr a)) ∧
    (s.bufLen.toNat < a + 4 → Raises (.st32 off) s 5 (s.boundsAddr a))

/-- After a successful store, the load of the same width at the same address returns `WDATA & mask(8n)` (R109). -/
def Obligations.LoadAfterStoreReturnsData : Prop :=
  ∀ (s t : State) (off : Nat), s.err = 0 → t.err = 0 →
    (exec (.st8 off) s = .next t →
      exec (.ld8 off) t = .next { t with rdata := s.wdata &&& 0xFF }) ∧
    (exec (.st16 off) s = .next t →
      exec (.ld16 off) t = .next { t with rdata := s.wdata &&& 0xFFFF }) ∧
    (exec (.st32 off) s = .next t →
      exec (.ld32 off) t = .next { t with rdata := s.wdata })

/-! ## Bit fields -/

/-- FLD.8, FLD.16 and FLD.32 put container bits [S+W-1 : S] into RDATA, zero-extended, and change nothing else; a field
that does not fit raises FIELD, a container that is not in bounds BOUNDS (R122, R121). -/
def Obligations.FldReadsField : Prop :=
  FormatF 0x08 .fld8 .fld16 .fld32 ∧
  ∀ (k : Container) (s : State) (w sh off a : Nat), s.err = 0 → s.absAddr off = a →
    (w + sh ≤ 8 * containerBytes k → a + containerBytes k ≤ s.bufLen.toNat →
      ∃ v, exec (fldCommand k w sh off) s = .next { s with rdata := v } ∧
        ∀ j < 32, v.getLsbD j = (decide (j < w) && containerBit s.mem a (containerBytes k) (sh + j))) ∧
    (8 * containerBytes k < w + sh → Raises (fldCommand k w sh off) s 2 0) ∧
    (w + sh ≤ 8 * containerBytes k → s.bufLen.toNat < a + containerBytes k →
      Raises (fldCommand k w sh off) s 5 (s.boundsAddr a))

/-- FST.8, FST.16 and FST.32 put WDATA's low W bits into container bits [S+W-1 : S]; every other bit of the container,
every byte outside it and every register keep their value; FIELD and BOUNDS as for FLD (R123, R58). -/
def Obligations.FstWritesOnlyItsField : Prop :=
  FormatF 0x09 .fst8 .fst16 .fst32 ∧
  ∀ (k : Container) (s : State) (w sh off a : Nat), s.err = 0 → s.absAddr off = a →
    (w + sh ≤ 8 * containerBytes k → a + containerBytes k ≤ s.bufLen.toNat →
      ∃ m, exec (fstCommand k w sh off) s = .next { s with mem := m } ∧
        (∀ j < 8 * containerBytes k, containerBit m a (containerBytes k) j =
          if sh ≤ j ∧ j < sh + w then s.wdata.getLsbD (j - sh) else containerBit s.mem a (containerBytes k) j) ∧
        ∀ b, b < a ∨ a + containerBytes k ≤ b → Memory.readByte m b = s.byteAt b) ∧
    (8 * containerBytes k < w + sh → Raises (fstCommand k w sh off) s 2 0) ∧
    (w + sh ≤ 8 * containerBytes k → s.bufLen.toNat < a + containerBytes k →
      Raises (fstCommand k w sh off) s 5 (s.boundsAddr a))

/-- FMSK, FEXT and FINS, bit by bit, with FIELD where the field does not fit 32 bits (R124, R125, R126). -/
def Obligations.RegisterFieldCommands : Prop :=
  FormatFReg 0x0A .fmsk ∧ FormatFReg 0x0B .fext ∧ FormatFReg 0x0C .fins ∧
  ∀ (s : State) (w sh : Nat), s.err = 0 →
    (w + sh ≤ 32 →
      (∃ v, exec (.fmsk w sh) s = .next { s with rdata := v } ∧
        ∀ j < 32, v.getLsbD j = decide (sh ≤ j ∧ j < sh + w)) ∧
      (∃ v, exec (.fext w sh) s = .next { s with rdata := v } ∧
        ∀ j < 32, v.getLsbD j = (decide (j < w) && s.wdata.getLsbD (sh + j))) ∧
      (∃ v, exec (.fins w sh) s = .next { s with rdata := v } ∧
        ∀ j < 32, v.getLsbD j = if sh ≤ j ∧ j < sh + w then s.wdata.getLsbD (j - sh) else s.rdata.getLsbD j)) ∧
    (32 < w + sh → Raises (.fmsk w sh) s 2 0 ∧ Raises (.fext w sh) s 2 0 ∧ Raises (.fins w sh) s 2 0)

/-- After a successful FST, FLD of the same field returns WDATA's low W bits, and a field of the same container that does
not overlap it reads as before (R128). -/
def Obligations.FieldRoundTrip : Prop :=
  ∀ (k : Container) (s t : State) (w sh off : Nat), s.err = 0 → exec (fstCommand k w sh off) s = .next t → t.err = 0 →
    (∃ v : Word, exec (fldCommand k w sh off) t = .next { t with rdata := v } ∧ v.toNat = s.wdata.toNat % 2 ^ w) ∧
    ∀ w' sh', w' + sh' ≤ 8 * containerBytes k → (sh + w ≤ sh' ∨ sh' + w' ≤ sh) →
      ∃ v : Word, exec (fldCommand k w' sh' off) s = .next { s with rdata := v } ∧
        exec (fldCommand k w' sh' off) t = .next { t with rdata := v }

/-- BSET.c b, off and BCLR.c b, off, run as the two host operations they expand to, change container bit b alone (R127,
R87); WDATA is 1 or 0 after them. -/
def Obligations.BitSetAndClearChangeOneBit : Prop :=
  ∀ (k : Container) (b off a : Nat) (s : State) (rest : List HostOp), s.err = 0 → s.absAddr off = a →
    b < 8 * containerBytes k → off < 16384 → a + containerBytes k ≤ s.bufLen.toNat →
    ∀ set : Bool, ∃ ops m,
      expand (if set then .bset k b off else .bclr k b off) = some ops ∧
      Host.Core.run core 2 { s with pending := ops ++ rest } =
        .next { s with pending := rest, wdata := if set then 1 else 0, mem := m } ∧
      (∀ j < 8 * containerBytes k, containerBit m a (containerBytes k) j =
        if j = b then set else containerBit s.mem a (containerBytes k) j) ∧
      ∀ c, c < a ∨ a + containerBytes k ≤ c → Memory.readByte m c = s.byteAt c

/-- The pseudo-instructions are exactly the expansions R87 lists, their words written out, and MOVW, run, copies its value
into RDATA. -/
def Obligations.PseudoInstructionsExpand : Prop :=
  (∀ v, expand (.setbase v) = some [.regWrite 32 0x08 v] ∧ expand (.setend v) = some [.regWrite 32 0x14 v] ∧
    expand (.ldw v) = some [.regWrite 32 0x0C v] ∧
    expand (.movw v) = some [.regWrite 32 0x0C v, .regWrite 32 0x00 0x2EF80000]) ∧
  expand .errclr = some [.regWrite 32 0x2C 0] ∧
  (∀ (k : Container) (b off : Nat), b < 32 → off < 16384 →
    ∀ cw, cw = (match k with | .c8 => 0 | .c16 => 1 | .c32 => 2) →
    expand (.bset k b off) =
      some [.regWrite 32 0x0C 1, .regWrite 32 0x00 (BitVec.ofNat 32 (0x24000000 + cw * 2 ^ 24 + b * 2 ^ 14 + off))] ∧
    expand (.bclr k b off) =
      some [.regWrite 32 0x0C 0, .regWrite 32 0x00 (BitVec.ofNat 32 (0x24000000 + cw * 2 ^ 24 + b * 2 ^ 14 + off))] ∧
    expand (.btst k b off) =
      some [.regWrite 32 0x00 (BitVec.ofNat 32 (0x20000000 + cw * 2 ^ 24 + b * 2 ^ 14 + off))]) ∧
  ∀ (s : State) (v : Word) (rest : List HostOp), s.err = 0 →
    Host.Core.run core 2 { s with pending := [.regWrite 32 0x0C v, .regWrite 32 0x00 0x2EF80000] ++ rest } =
      .next { s with pending := rest, wdata := v, rdata := v }

/-! ## Pseudo-header -/

/-- PHCLR zeroes all 40 bytes of PHBUF and PH_LEN, and nothing else changes (R140). -/
def Obligations.PhclrEmptiesPseudoHeader : Prop :=
  FormatN 0x10 .phclr ∧
  ∀ s : State, s.err = 0 → ∃ t, exec .phclr s = .next t ∧ t = { s with phbuf := t.phbuf, phLen := 0 } ∧
    ∀ i < 40, t.phByte i = 0

/-- PHB8, PHB16 and PHB32 append WDATA's low 1, 2 and 4 bytes big-endian; where they do not fit 40 bytes, PHOVF and
nothing is appended (R141, R142, R143, R199). -/
def Obligations.AppendsPutWdataInPhbuf : Prop :=
  FormatN 0x11 .phb8 ∧ FormatN 0x12 .phb16 ∧ FormatN 0x13 .phb32 ∧
  ∀ s : State, s.err = 0 →
    ∀ e ∈ [(Instr.phb8, 1), (Instr.phb16, 2), (Instr.phb32, 4)],
      (s.phLen + e.2 ≤ 40 → ∃ t, exec e.1 s = .next t ∧
        t = { s with phbuf := t.phbuf, phLen := s.phLen + e.2 } ∧
        ∀ i < 40, t.phByte i =
          if s.phLen ≤ i ∧ i < s.phLen + e.2 then s.wdata.extractLsb' (8 * (e.2 - 1 - (i - s.phLen))) 8
          else s.phByte i) ∧
      (40 < s.phLen + e.2 → Raises e.1 s 4 0)

/-- PHCPY appends n bytes of MEM from BASE + off16 as they are; PHOVF where they do not fit, else BOUNDS where the source
is not in bounds; n = 0 checks no bounds (R144, R199). -/
def Obligations.PhcpyCopiesBytes : Prop :=
  FormatP 0x14 .phcpy ∧
  ∀ (s : State) (n off a : Nat), s.err = 0 → s.absAddr off = a →
    (s.phLen + n ≤ 40 → (n = 0 ∨ a + n ≤ s.bufLen.toNat) → ∃ t, exec (.phcpy n off) s = .next t ∧
      t = { s with phbuf := t.phbuf, phLen := s.phLen + n } ∧
      ∀ i < 40, t.phByte i =
        if s.phLen ≤ i ∧ i < s.phLen + n then s.byteAt (a + (i - s.phLen)) else s.phByte i) ∧
    (40 < s.phLen + n → Raises (.phcpy n off) s 4 0) ∧
    (s.phLen + n ≤ 40 → n ≠ 0 → s.bufLen.toNat < a + n → Raises (.phcpy n off) s 5 (s.boundsAddr a))

/-- PH4 builds the 12-byte IPv4 pseudo-header from the header at BASE: addresses, zero, protocol id, and total length minus
4 * IHL modulo 2^16; the rest of PHBUF is zeroed and nothing else changes (R146, offsets of R145). -/
def Obligations.Ph4BuildsIpv4PseudoHeader : Prop :=
  FormatN 0x15 .ph4 ∧
  ∀ (s : State) (b : Nat), s.err = 0 → s.base.toNat = b →
    (b + 20 ≤ s.bufLen.toNat → ∃ t, exec .ph4 s = .next t ∧ t = { s with phbuf := t.phbuf, phLen := 12 } ∧
      (∀ i < 8, t.phByte i = s.byteAt (b + 12 + i)) ∧ t.phByte 8 = 0 ∧ t.phByte 9 = s.byteAt (b + 9) ∧
      ((t.phByte 10).toNat * 256 + (t.phByte 11).toNat + 4 * ((s.byteAt b).toNat % 16)) % 2 ^ 16 =
        (s.byteAt (b + 2)).toNat * 256 + (s.byteAt (b + 3)).toNat ∧
      ∀ i, 12 ≤ i → i < 40 → t.phByte i = 0) ∧
    (s.bufLen.toNat < b + 20 → Raises .ph4 s 5 (s.boundsAddr b))

/-- PH6 builds the 36-byte IPv6 pseudo-header from the header at BASE: addresses, one zero byte, next header, payload
length; the rest of PHBUF is zeroed and nothing else changes (R147, offsets of R148). -/
def Obligations.Ph6BuildsIpv6PseudoHeader : Prop :=
  FormatN 0x16 .ph6 ∧
  ∀ (s : State) (b : Nat), s.err = 0 → s.base.toNat = b →
    (b + 40 ≤ s.bufLen.toNat → ∃ t, exec .ph6 s = .next t ∧ t = { s with phbuf := t.phbuf, phLen := 36 } ∧
      (∀ i < 32, t.phByte i = s.byteAt (b + 8 + i)) ∧ t.phByte 32 = 0 ∧ t.phByte 33 = s.byteAt (b + 6) ∧
      t.phByte 34 = s.byteAt (b + 4) ∧ t.phByte 35 = s.byteAt (b + 5) ∧
      ∀ i, 36 ≤ i → i < 40 → t.phByte i = 0) ∧
    (s.bufLen.toNat < b + 40 → Raises .ph6 s 5 (s.boundsAddr b))

/-- The 36-, 38- and 40-byte layouts of an IPv6 pseudo-header have the same word sum, that of the addresses plus next
header plus length, whatever follows them, so a checksum command with P = 1 gives the same value (R149). -/
def Obligations.PseudoHeaderLayoutsAgree : Prop :=
  ∀ (src dst : List Byte) (nh lh ll : Byte), src.length = 16 → dst.length = 16 →
    ∀ layout ∈ [src ++ dst ++ [0, nh, lh, ll], src ++ dst ++ [0, 0, 0, nh, lh, ll],
        src ++ dst ++ [0, 0, lh, ll, 0, 0, 0, nh]],
      (streamWords layout).sum =
        (streamWords src).sum + (streamWords dst).sum + nh.toNat + (lh.toNat * 256 + ll.toNat) ∧
      (∀ main, wordSum (layout ++ main) = (streamWords layout).sum + (streamWords main).sum) ∧
      ∀ (s s' t : State) (fld : Nat), s.err = 0 → s'.err = 0 → s'.mem = s.mem → s'.bufLen = s.bufLen →
        s'.base = s.base → s'.ckEnd = s.ckEnd →
        s.pseudoHeader = src ++ dst ++ [0, nh, lh, ll] → s'.pseudoHeader = layout →
        ∀ i ∈ [Instr.cksum true fld, .ckver true fld, .ckapp true fld], exec i s = .next t → t.err = 0 →
          ∃ t', exec i s' = .next t' ∧ t'.err = 0 ∧ t'.rdata = t.rdata ∧ t'.ckSum = t.ckSum

/-! ## Checksum -/

/-- The stream a checksum command sums is R161's, with the field bytes as 0 (R161, R162). -/
def Obligations.StreamIsPseudoHeaderThenRange : Prop :=
  ∀ (s : State) (p : Bool) (fld : Nat), s.stream p fld = specStream s p fld

/-- The exact word sum is R161's, the fold loop is R163's with its bounds, and Fold is 0 only on 0 and 0xFFFF exactly on
the positive multiples of 0xFFFF (R163). -/
def Obligations.FoldIsOnesComplementSum : Prop :=
  (∀ l : List Byte, wordSum l = (streamWords l).sum) ∧
  ∀ x : Nat,
    (x ≤ 0xFFFF → fold x = x) ∧
    (0xFFFF < x → fold x = fold ((x &&& 0xFFFF) + (x >>> 16)) ∧ (x &&& 0xFFFF) + (x >>> 16) < x) ∧
    fold x ≤ 0xFFFF ∧ fold x % 0xFFFF = x % 0xFFFF ∧ (0 < x → 0 < fold x) ∧
    (fold x = 0xFFFF ↔ 0 < x ∧ x % 0xFFFF = 0) ∧ (x < 2 ^ 32 → foldRounds 2 x = fold x)

/-- A 16-bit accumulator with end-around carry, over the words in any order, gives Fold of their exact sum: 0 exactly when
every word is 0, else the number in 1..0xFFFF congruent to the sum; and folding after each group of words, however the
words are grouped, gives the same (R165). -/
def Obligations.EndAroundCarryEquivalent : Prop :=
  ∀ (l : List Byte) (words : List Nat), words.Perm (streamWords l) →
    endAroundSum words = fold (wordSum l) ∧
    (endAroundSum words = 0 ↔ ∀ w ∈ words, w = 0) ∧ endAroundSum words ≤ 0xFFFF ∧
    endAroundSum words % 0xFFFF = wordSum l % 0xFFFF ∧
    ∀ groups : List (List Nat), groups.flatten = words →
      groups.foldl (fun acc g => fold (acc + g.sum)) 0 = fold (wordSum l)

/-- CKSUM puts C into RDATA and sum16 into CK_SUM and changes nothing else, with its errors in order (R170, R164, R160). -/
def Obligations.CksumComputes : Prop :=
  FormatC 0x20 .cksum ∧
  ∀ (s : State) (p : Bool) (fld : Nat), s.err = 0 →
    (ChecksumPasses s fld → ∃ n, IsOnesSum (specStream s p fld) n ∧
      exec (.cksum p fld) s = .next { s with rdata := BitVec.ofNat 32 (0xFFFF - n), ckSum := BitVec.ofNat 16 n }) ∧
    ChecksumErrors (.cksum p fld) s fld

/-- CKVER also sets VOK to whether the stored field equals C, exactly, and changes no byte of MEM (R172, R178). -/
def Obligations.CkverComparesStoredField : Prop :=
  FormatC 0x21 .ckver ∧
  ∀ (s : State) (p : Bool) (fld : Nat), s.err = 0 →
    (ChecksumPasses s fld → ∃ n, IsOnesSum (specStream s p fld) n ∧
      exec (.ckver p fld) s = .next { s with
        vok := decide (storedField s (s.absAddr fld) = 0xFFFF - n)
        rdata := BitVec.ofNat 32 (0xFFFF - n), ckSum := BitVec.ofNat 16 n }) ∧
    ChecksumErrors (.ckver p fld) s fld

/-- CKAPP also stores C big-endian in the field, computed from MEM before the write, and changes no other byte (R174). -/
def Obligations.CkappStoresChecksum : Prop :=
  FormatC 0x22 .ckapp ∧
  ∀ (s : State) (p : Bool) (fld f : Nat), s.err = 0 → s.absAddr fld = f →
    (ChecksumPasses s fld → ∃ n t, IsOnesSum (specStream s p fld) n ∧ exec (.ckapp p fld) s = .next t ∧
      t = { s with mem := t.mem, rdata := BitVec.ofNat 32 (0xFFFF - n), ckSum := BitVec.ofNat 16 n } ∧
      storedField t f = 0xFFFF - n ∧ ∀ a, a < f ∨ f + 2 ≤ a → t.byteAt a = s.byteAt a) ∧
    ChecksumErrors (.ckapp p fld) s fld

/-- CKCLR zeroes the two field bytes and changes nothing else; CK_END plays no part; bit 25 and [24:16] are reserved; and
a CKAPP after it leaves what CKAPP alone leaves (R176). -/
def Obligations.CkclrZeroesField : Prop :=
  FormatA 0x23 .ckclr ∧
  ∀ (s : State) (fld f : Nat), s.err = 0 → s.absAddr fld = f →
    (f + 2 ≤ s.bufLen.toNat → ∃ m, exec (.ckclr fld) s = .next { s with mem := m } ∧
      Memory.readByte m f = 0 ∧ Memory.readByte m (f + 1) = 0 ∧
      ∀ a, a < f ∨ f + 2 ≤ a → Memory.readByte m a = s.byteAt a) ∧
    (s.bufLen.toNat < f + 2 → Raises (.ckclr fld) s 5 (s.boundsAddr f)) ∧
    ∀ (p : Bool) (t u : State), exec (.ckclr fld) s = .next t → exec (.ckapp p fld) s = .next u → u.err = 0 →
      ∃ v, exec (.ckapp p fld) t = .next v ∧ v = { u with mem := v.mem } ∧ ∀ a, v.byteAt a = u.byteAt a

/-- Corner values of C after a successful CKSUM, CKVER or CKAPP: an empty or all-zero stream gives 0xFFFF; C = 0 exactly
when sum16 = 0xFFFF, as on the stream ff ff; and CKVER compares the field with that very C, whatever either is (R166). -/
def Obligations.ChecksumCornerValues : Prop :=
  ∀ (s t : State) (p : Bool) (fld : Nat), s.err = 0 → t.err = 0 →
    (∀ i ∈ [Instr.cksum p fld, .ckver p fld, .ckapp p fld], exec i s = .next t →
      (s.ckEnd = s.base → (p = false ∨ s.phLen = 0) → t.ckSum = 0 ∧ t.rdata = 0xFFFF) ∧
      ((∀ b ∈ specStream s p fld, b = 0) → t.rdata = 0xFFFF) ∧
      (t.rdata = 0 ↔ t.ckSum = 0xFFFF) ∧
      (specStream s p fld = [0xFF, 0xFF] → t.rdata = 0)) ∧
    (exec (.ckver p fld) s = .next t → t.vok = decide (storedField s (s.absAddr fld) = t.rdata.toNat))

/-- `apply(); verify()` is true: after a successful CKAPP, a CKVER with the same operands sets VOK, in any state with the
same MEM, BUF_LEN, BASE, CK_END and pseudo-header (R175 a). -/
def Obligations.ApplyThenVerifySucceeds : Prop :=
  ∀ (s t t' : State) (p : Bool) (fld : Nat), s.err = 0 → exec (.ckapp p fld) s = .next t → t.err = 0 →
    t'.err = 0 → t'.mem = t.mem → t'.bufLen = t.bufLen → t'.base = t.base → t'.ckEnd = t.ckEnd →
    t'.pseudoHeader = t.pseudoHeader →
    ∃ u, exec (.ckver p fld) t' = .next u ∧ u.err = 0 ∧ u.vok = true

/-- A second CKAPP with the same operands changes no byte and no register (R175 b). -/
def Obligations.ApplyIsIdempotent : Prop :=
  ∀ (s t : State) (p : Bool) (fld : Nat), s.err = 0 → exec (.ckapp p fld) s = .next t → t.err = 0 →
    ∃ u, exec (.ckapp p fld) t = .next u ∧ u = { t with mem := u.mem } ∧ ∀ a, u.byteAt a = t.byteAt a

/-- After a successful CKAPP, inverting any one bit of a stream byte makes the next CKVER clear VOK: a byte of the range
outside the field, or, with P = 1, a byte of the pseudo-header (R175 c). -/
def Obligations.VerifyDetectsSingleBitFlip : Prop :=
  ∀ (s t : State) (p : Bool) (fld j : Nat), s.err = 0 → exec (.ckapp p fld) s = .next t → t.err = 0 → j < 8 →
    (∀ a, s.base.toNat ≤ a → a < s.ckEnd.toNat → a ≠ s.absAddr fld → a ≠ s.absAddr fld + 1 →
      ∃ u, exec (.ckver p fld)
          { t with mem := Memory.writeByte t.mem a (t.byteAt a ^^^ BitVec.ofNat 8 (2 ^ j)) } = .next u ∧
        u.vok = false) ∧
    ∀ i, p = true → i < t.phLen → i < 40 →
      ∃ u, exec (.ckver p fld)
          { t with phbuf := t.phbuf.setIfInBounds i (t.phByte i ^^^ BitVec.ofNat 8 (2 ^ j)) } = .next u ∧
        u.vok = false

/-- Verify properties: CKVER changes no byte of MEM; VOK depends on the stream and the stored field alone; and it is 1
exactly when the stored field is 0xFFFF - sum16 (R173). -/
def Obligations.VerifyDependsOnStreamAndField : Prop :=
  (∀ (s t : State) (p : Bool) (fld : Nat), exec (.ckver p fld) s = .next t → t.mem = s.mem) ∧
  (∀ (s t s' t' : State) (p p' : Bool) (fld fld' : Nat), s.err = 0 → s'.err = 0 →
    exec (.ckver p fld) s = .next t → exec (.ckver p' fld') s' = .next t' → t.err = 0 → t'.err = 0 →
    specStream s p fld = specStream s' p' fld' →
    storedField s (s.absAddr fld) = storedField s' (s'.absAddr fld') → t.vok = t'.vok) ∧
  ∀ (s t : State) (p : Bool) (fld n : Nat), s.err = 0 → exec (.ckver p fld) s = .next t → t.err = 0 →
    IsOnesSum (specStream s p fld) n → (t.vok = true ↔ storedField s (s.absAddr fld) = 0xFFFF - n)

/-- The stored checksum takes no part in the sum: MEM may differ in the two field bytes, inside the range or not, and CKSUM
leaves the same registers and writes no MEM byte (R162). -/
def Obligations.StoredFieldTakesNoPart : Prop :=
  ∀ (s t : State) (m : Memory) (p : Bool) (fld : Nat),
    (∀ a, a ≠ s.absAddr fld → a ≠ s.absAddr fld + 1 → Memory.readByte m a = s.byteAt a) →
    exec (.cksum p fld) s = .next t → t.mem = s.mem ∧ exec (.cksum p fld) { s with mem := m } = .next { t with mem := m }

/-- After CKCLR, a CKVER with the same operands sets VOK only when C = 0, that is when sum16 = 0xFFFF (R177). -/
def Obligations.ClearThenVerify : Prop :=
  ∀ (s t u : State) (p : Bool) (fld : Nat), s.err = 0 → exec (.ckclr fld) s = .next t → t.err = 0 →
    exec (.ckver p fld) t = .next u → u.err = 0 →
    (u.vok = true ↔ u.rdata = 0) ∧ (u.rdata = 0 ↔ u.ckSum = 0xFFFF)
end

