-- ==== Sys2Proof/Laws/State.lean ====
section
/-! SUPPORT. What each named update of the state leaves in each field, one lemma per field per update, so that no later
proof unfolds a record update. -/

namespace Sys2Proof.Machine.State

variable (s : State)

@[simp] theorem setBase_mem (v : Word) : (s.setBase v).mem = s.mem := rfl
@[simp] theorem setBase_base (v : Word) : (s.setBase v).base = v := rfl
@[simp] theorem setBase_wdata (v : Word) : (s.setBase v).wdata = s.wdata := rfl
@[simp] theorem setBase_rdata (v : Word) : (s.setBase v).rdata = s.rdata := rfl
@[simp] theorem setBase_ckEnd (v : Word) : (s.setBase v).ckEnd = s.ckEnd := rfl
@[simp] theorem setBase_ckSum (v : Word) : (s.setBase v).ckSum = s.ckSum := rfl
@[simp] theorem setBase_phbuf (v : Word) : (s.setBase v).phbuf = s.phbuf := rfl
@[simp] theorem setBase_phLen (v : Word) : (s.setBase v).phLen = s.phLen := rfl
@[simp] theorem setBase_vok (v : Word) : (s.setBase v).vok = s.vok := rfl
@[simp] theorem setBase_err (v : Word) : (s.setBase v).err = s.err := rfl
@[simp] theorem setBase_errcmd (v : Word) : (s.setBase v).errcmd = s.errcmd := rfl
@[simp] theorem setBase_erraddr (v : Word) : (s.setBase v).erraddr = s.erraddr := rfl
@[simp] theorem setBase_bufLen (v : Word) : (s.setBase v).bufLen = s.bufLen := rfl
@[simp] theorem setBase_pending (v : Word) : (s.setBase v).pending = s.pending := rfl
@[simp] theorem setBase_reply (v : Word) : (s.setBase v).reply = s.reply := rfl

@[simp] theorem setWdata_mem (v : Word) : (s.setWdata v).mem = s.mem := rfl
@[simp] theorem setWdata_base (v : Word) : (s.setWdata v).base = s.base := rfl
@[simp] theorem setWdata_wdata (v : Word) : (s.setWdata v).wdata = v := rfl
@[simp] theorem setWdata_rdata (v : Word) : (s.setWdata v).rdata = s.rdata := rfl
@[simp] theorem setWdata_ckEnd (v : Word) : (s.setWdata v).ckEnd = s.ckEnd := rfl
@[simp] theorem setWdata_ckSum (v : Word) : (s.setWdata v).ckSum = s.ckSum := rfl
@[simp] theorem setWdata_phbuf (v : Word) : (s.setWdata v).phbuf = s.phbuf := rfl
@[simp] theorem setWdata_phLen (v : Word) : (s.setWdata v).phLen = s.phLen := rfl
@[simp] theorem setWdata_vok (v : Word) : (s.setWdata v).vok = s.vok := rfl
@[simp] theorem setWdata_err (v : Word) : (s.setWdata v).err = s.err := rfl
@[simp] theorem setWdata_errcmd (v : Word) : (s.setWdata v).errcmd = s.errcmd := rfl
@[simp] theorem setWdata_erraddr (v : Word) : (s.setWdata v).erraddr = s.erraddr := rfl
@[simp] theorem setWdata_bufLen (v : Word) : (s.setWdata v).bufLen = s.bufLen := rfl
@[simp] theorem setWdata_pending (v : Word) : (s.setWdata v).pending = s.pending := rfl
@[simp] theorem setWdata_reply (v : Word) : (s.setWdata v).reply = s.reply := rfl

@[simp] theorem setCkEnd_mem (v : Word) : (s.setCkEnd v).mem = s.mem := rfl
@[simp] theorem setCkEnd_base (v : Word) : (s.setCkEnd v).base = s.base := rfl
@[simp] theorem setCkEnd_wdata (v : Word) : (s.setCkEnd v).wdata = s.wdata := rfl
@[simp] theorem setCkEnd_rdata (v : Word) : (s.setCkEnd v).rdata = s.rdata := rfl
@[simp] theorem setCkEnd_ckEnd (v : Word) : (s.setCkEnd v).ckEnd = v := rfl
@[simp] theorem setCkEnd_ckSum (v : Word) : (s.setCkEnd v).ckSum = s.ckSum := rfl
@[simp] theorem setCkEnd_phbuf (v : Word) : (s.setCkEnd v).phbuf = s.phbuf := rfl
@[simp] theorem setCkEnd_phLen (v : Word) : (s.setCkEnd v).phLen = s.phLen := rfl
@[simp] theorem setCkEnd_vok (v : Word) : (s.setCkEnd v).vok = s.vok := rfl
@[simp] theorem setCkEnd_err (v : Word) : (s.setCkEnd v).err = s.err := rfl
@[simp] theorem setCkEnd_errcmd (v : Word) : (s.setCkEnd v).errcmd = s.errcmd := rfl
@[simp] theorem setCkEnd_erraddr (v : Word) : (s.setCkEnd v).erraddr = s.erraddr := rfl
@[simp] theorem setCkEnd_bufLen (v : Word) : (s.setCkEnd v).bufLen = s.bufLen := rfl
@[simp] theorem setCkEnd_pending (v : Word) : (s.setCkEnd v).pending = s.pending := rfl
@[simp] theorem setCkEnd_reply (v : Word) : (s.setCkEnd v).reply = s.reply := rfl

@[simp] theorem setPending_mem (ops : List HostOp) : (s.setPending ops).mem = s.mem := rfl
@[simp] theorem setPending_base (ops : List HostOp) : (s.setPending ops).base = s.base := rfl
@[simp] theorem setPending_wdata (ops : List HostOp) : (s.setPending ops).wdata = s.wdata := rfl
@[simp] theorem setPending_rdata (ops : List HostOp) : (s.setPending ops).rdata = s.rdata := rfl
@[simp] theorem setPending_ckEnd (ops : List HostOp) : (s.setPending ops).ckEnd = s.ckEnd := rfl
@[simp] theorem setPending_ckSum (ops : List HostOp) : (s.setPending ops).ckSum = s.ckSum := rfl
@[simp] theorem setPending_phbuf (ops : List HostOp) : (s.setPending ops).phbuf = s.phbuf := rfl
@[simp] theorem setPending_phLen (ops : List HostOp) : (s.setPending ops).phLen = s.phLen := rfl
@[simp] theorem setPending_vok (ops : List HostOp) : (s.setPending ops).vok = s.vok := rfl
@[simp] theorem setPending_err (ops : List HostOp) : (s.setPending ops).err = s.err := rfl
@[simp] theorem setPending_errcmd (ops : List HostOp) : (s.setPending ops).errcmd = s.errcmd := rfl
@[simp] theorem setPending_erraddr (ops : List HostOp) : (s.setPending ops).erraddr = s.erraddr := rfl
@[simp] theorem setPending_bufLen (ops : List HostOp) : (s.setPending ops).bufLen = s.bufLen := rfl
@[simp] theorem setPending_pending (ops : List HostOp) : (s.setPending ops).pending = ops := rfl
@[simp] theorem setPending_reply (ops : List HostOp) : (s.setPending ops).reply = s.reply := rfl

@[simp] theorem setReply_mem (v : Word) : (s.setReply v).mem = s.mem := rfl
@[simp] theorem setReply_base (v : Word) : (s.setReply v).base = s.base := rfl
@[simp] theorem setReply_wdata (v : Word) : (s.setReply v).wdata = s.wdata := rfl
@[simp] theorem setReply_rdata (v : Word) : (s.setReply v).rdata = s.rdata := rfl
@[simp] theorem setReply_ckEnd (v : Word) : (s.setReply v).ckEnd = s.ckEnd := rfl
@[simp] theorem setReply_ckSum (v : Word) : (s.setReply v).ckSum = s.ckSum := rfl
@[simp] theorem setReply_phbuf (v : Word) : (s.setReply v).phbuf = s.phbuf := rfl
@[simp] theorem setReply_phLen (v : Word) : (s.setReply v).phLen = s.phLen := rfl
@[simp] theorem setReply_vok (v : Word) : (s.setReply v).vok = s.vok := rfl
@[simp] theorem setReply_err (v : Word) : (s.setReply v).err = s.err := rfl
@[simp] theorem setReply_errcmd (v : Word) : (s.setReply v).errcmd = s.errcmd := rfl
@[simp] theorem setReply_erraddr (v : Word) : (s.setReply v).erraddr = s.erraddr := rfl
@[simp] theorem setReply_bufLen (v : Word) : (s.setReply v).bufLen = s.bufLen := rfl
@[simp] theorem setReply_pending (v : Word) : (s.setReply v).pending = s.pending := rfl
@[simp] theorem setReply_reply (v : Word) : (s.setReply v).reply = some v := rfl

@[simp] theorem setByte_mem (a : Nat) (b : Byte) : (s.setByte a b).mem = Memory.writeByte s.mem a b := rfl
@[simp] theorem setByte_base (a : Nat) (b : Byte) : (s.setByte a b).base = s.base := rfl
@[simp] theorem setByte_wdata (a : Nat) (b : Byte) : (s.setByte a b).wdata = s.wdata := rfl
@[simp] theorem setByte_rdata (a : Nat) (b : Byte) : (s.setByte a b).rdata = s.rdata := rfl
@[simp] theorem setByte_ckEnd (a : Nat) (b : Byte) : (s.setByte a b).ckEnd = s.ckEnd := rfl
@[simp] theorem setByte_ckSum (a : Nat) (b : Byte) : (s.setByte a b).ckSum = s.ckSum := rfl
@[simp] theorem setByte_phbuf (a : Nat) (b : Byte) : (s.setByte a b).phbuf = s.phbuf := rfl
@[simp] theorem setByte_phLen (a : Nat) (b : Byte) : (s.setByte a b).phLen = s.phLen := rfl
@[simp] theorem setByte_vok (a : Nat) (b : Byte) : (s.setByte a b).vok = s.vok := rfl
@[simp] theorem setByte_err (a : Nat) (b : Byte) : (s.setByte a b).err = s.err := rfl
@[simp] theorem setByte_errcmd (a : Nat) (b : Byte) : (s.setByte a b).errcmd = s.errcmd := rfl
@[simp] theorem setByte_erraddr (a : Nat) (b : Byte) : (s.setByte a b).erraddr = s.erraddr := rfl
@[simp] theorem setByte_bufLen (a : Nat) (b : Byte) : (s.setByte a b).bufLen = s.bufLen := rfl
@[simp] theorem setByte_pending (a : Nat) (b : Byte) : (s.setByte a b).pending = s.pending := rfl
@[simp] theorem setByte_reply (a : Nat) (b : Byte) : (s.setByte a b).reply = s.reply := rfl

@[simp] theorem setRdata_mem (v : Nat) : (s.setRdata v).mem = s.mem := rfl
@[simp] theorem setRdata_base (v : Nat) : (s.setRdata v).base = s.base := rfl
@[simp] theorem setRdata_wdata (v : Nat) : (s.setRdata v).wdata = s.wdata := rfl
@[simp] theorem setRdata_rdata (v : Nat) : (s.setRdata v).rdata = BitVec.ofNat 32 v := rfl
@[simp] theorem setRdata_ckEnd (v : Nat) : (s.setRdata v).ckEnd = s.ckEnd := rfl
@[simp] theorem setRdata_ckSum (v : Nat) : (s.setRdata v).ckSum = s.ckSum := rfl
@[simp] theorem setRdata_phbuf (v : Nat) : (s.setRdata v).phbuf = s.phbuf := rfl
@[simp] theorem setRdata_phLen (v : Nat) : (s.setRdata v).phLen = s.phLen := rfl
@[simp] theorem setRdata_vok (v : Nat) : (s.setRdata v).vok = s.vok := rfl
@[simp] theorem setRdata_err (v : Nat) : (s.setRdata v).err = s.err := rfl
@[simp] theorem setRdata_errcmd (v : Nat) : (s.setRdata v).errcmd = s.errcmd := rfl
@[simp] theorem setRdata_erraddr (v : Nat) : (s.setRdata v).erraddr = s.erraddr := rfl
@[simp] theorem setRdata_bufLen (v : Nat) : (s.setRdata v).bufLen = s.bufLen := rfl
@[simp] theorem setRdata_pending (v : Nat) : (s.setRdata v).pending = s.pending := rfl
@[simp] theorem setRdata_reply (v : Nat) : (s.setRdata v).reply = s.reply := rfl

@[simp] theorem memWrite_mem (a n v : Nat) : (s.memWrite a n v).mem = Memory.writeBytes s.mem a (beBytes n v) := rfl
@[simp] theorem memWrite_base (a n v : Nat) : (s.memWrite a n v).base = s.base := rfl
@[simp] theorem memWrite_wdata (a n v : Nat) : (s.memWrite a n v).wdata = s.wdata := rfl
@[simp] theorem memWrite_rdata (a n v : Nat) : (s.memWrite a n v).rdata = s.rdata := rfl
@[simp] theorem memWrite_ckEnd (a n v : Nat) : (s.memWrite a n v).ckEnd = s.ckEnd := rfl
@[simp] theorem memWrite_ckSum (a n v : Nat) : (s.memWrite a n v).ckSum = s.ckSum := rfl
@[simp] theorem memWrite_phbuf (a n v : Nat) : (s.memWrite a n v).phbuf = s.phbuf := rfl
@[simp] theorem memWrite_phLen (a n v : Nat) : (s.memWrite a n v).phLen = s.phLen := rfl
@[simp] theorem memWrite_vok (a n v : Nat) : (s.memWrite a n v).vok = s.vok := rfl
@[simp] theorem memWrite_err (a n v : Nat) : (s.memWrite a n v).err = s.err := rfl
@[simp] theorem memWrite_errcmd (a n v : Nat) : (s.memWrite a n v).errcmd = s.errcmd := rfl
@[simp] theorem memWrite_erraddr (a n v : Nat) : (s.memWrite a n v).erraddr = s.erraddr := rfl
@[simp] theorem memWrite_bufLen (a n v : Nat) : (s.memWrite a n v).bufLen = s.bufLen := rfl
@[simp] theorem memWrite_pending (a n v : Nat) : (s.memWrite a n v).pending = s.pending := rfl
@[simp] theorem memWrite_reply (a n v : Nat) : (s.memWrite a n v).reply = s.reply := rfl

@[simp] theorem setCkSum_mem (v : Nat) : (s.setCkSum v).mem = s.mem := rfl
@[simp] theorem setCkSum_base (v : Nat) : (s.setCkSum v).base = s.base := rfl
@[simp] theorem setCkSum_wdata (v : Nat) : (s.setCkSum v).wdata = s.wdata := rfl
@[simp] theorem setCkSum_rdata (v : Nat) : (s.setCkSum v).rdata = s.rdata := rfl
@[simp] theorem setCkSum_ckEnd (v : Nat) : (s.setCkSum v).ckEnd = s.ckEnd := rfl
@[simp] theorem setCkSum_ckSum (v : Nat) : (s.setCkSum v).ckSum = BitVec.ofNat 16 v := rfl
@[simp] theorem setCkSum_phbuf (v : Nat) : (s.setCkSum v).phbuf = s.phbuf := rfl
@[simp] theorem setCkSum_phLen (v : Nat) : (s.setCkSum v).phLen = s.phLen := rfl
@[simp] theorem setCkSum_vok (v : Nat) : (s.setCkSum v).vok = s.vok := rfl
@[simp] theorem setCkSum_err (v : Nat) : (s.setCkSum v).err = s.err := rfl
@[simp] theorem setCkSum_errcmd (v : Nat) : (s.setCkSum v).errcmd = s.errcmd := rfl
@[simp] theorem setCkSum_erraddr (v : Nat) : (s.setCkSum v).erraddr = s.erraddr := rfl
@[simp] theorem setCkSum_bufLen (v : Nat) : (s.setCkSum v).bufLen = s.bufLen := rfl
@[simp] theorem setCkSum_pending (v : Nat) : (s.setCkSum v).pending = s.pending := rfl
@[simp] theorem setCkSum_reply (v : Nat) : (s.setCkSum v).reply = s.reply := rfl

@[simp] theorem setVok_mem (v : Bool) : (s.setVok v).mem = s.mem := rfl
@[simp] theorem setVok_base (v : Bool) : (s.setVok v).base = s.base := rfl
@[simp] theorem setVok_wdata (v : Bool) : (s.setVok v).wdata = s.wdata := rfl
@[simp] theorem setVok_rdata (v : Bool) : (s.setVok v).rdata = s.rdata := rfl
@[simp] theorem setVok_ckEnd (v : Bool) : (s.setVok v).ckEnd = s.ckEnd := rfl
@[simp] theorem setVok_ckSum (v : Bool) : (s.setVok v).ckSum = s.ckSum := rfl
@[simp] theorem setVok_phbuf (v : Bool) : (s.setVok v).phbuf = s.phbuf := rfl
@[simp] theorem setVok_phLen (v : Bool) : (s.setVok v).phLen = s.phLen := rfl
@[simp] theorem setVok_vok (v : Bool) : (s.setVok v).vok = v := rfl
@[simp] theorem setVok_err (v : Bool) : (s.setVok v).err = s.err := rfl
@[simp] theorem setVok_errcmd (v : Bool) : (s.setVok v).errcmd = s.errcmd := rfl
@[simp] theorem setVok_erraddr (v : Bool) : (s.setVok v).erraddr = s.erraddr := rfl
@[simp] theorem setVok_bufLen (v : Bool) : (s.setVok v).bufLen = s.bufLen := rfl
@[simp] theorem setVok_pending (v : Bool) : (s.setVok v).pending = s.pending := rfl
@[simp] theorem setVok_reply (v : Bool) : (s.setVok v).reply = s.reply := rfl

@[simp] theorem phAppend_mem (bs : List Byte) : (s.phAppend bs).mem = s.mem := rfl
@[simp] theorem phAppend_base (bs : List Byte) : (s.phAppend bs).base = s.base := rfl
@[simp] theorem phAppend_wdata (bs : List Byte) : (s.phAppend bs).wdata = s.wdata := rfl
@[simp] theorem phAppend_rdata (bs : List Byte) : (s.phAppend bs).rdata = s.rdata := rfl
@[simp] theorem phAppend_ckEnd (bs : List Byte) : (s.phAppend bs).ckEnd = s.ckEnd := rfl
@[simp] theorem phAppend_ckSum (bs : List Byte) : (s.phAppend bs).ckSum = s.ckSum := rfl
@[simp] theorem phAppend_phbuf (bs : List Byte) : (s.phAppend bs).phbuf = phWrite s.phbuf s.phLen bs := rfl
@[simp] theorem phAppend_phLen (bs : List Byte) : (s.phAppend bs).phLen = s.phLen + bs.length := rfl
@[simp] theorem phAppend_vok (bs : List Byte) : (s.phAppend bs).vok = s.vok := rfl
@[simp] theorem phAppend_err (bs : List Byte) : (s.phAppend bs).err = s.err := rfl
@[simp] theorem phAppend_errcmd (bs : List Byte) : (s.phAppend bs).errcmd = s.errcmd := rfl
@[simp] theorem phAppend_erraddr (bs : List Byte) : (s.phAppend bs).erraddr = s.erraddr := rfl
@[simp] theorem phAppend_bufLen (bs : List Byte) : (s.phAppend bs).bufLen = s.bufLen := rfl
@[simp] theorem phAppend_pending (bs : List Byte) : (s.phAppend bs).pending = s.pending := rfl
@[simp] theorem phAppend_reply (bs : List Byte) : (s.phAppend bs).reply = s.reply := rfl

@[simp] theorem phReplace_mem (bs : List Byte) : (s.phReplace bs).mem = s.mem := rfl
@[simp] theorem phReplace_base (bs : List Byte) : (s.phReplace bs).base = s.base := rfl
@[simp] theorem phReplace_wdata (bs : List Byte) : (s.phReplace bs).wdata = s.wdata := rfl
@[simp] theorem phReplace_rdata (bs : List Byte) : (s.phReplace bs).rdata = s.rdata := rfl
@[simp] theorem phReplace_ckEnd (bs : List Byte) : (s.phReplace bs).ckEnd = s.ckEnd := rfl
@[simp] theorem phReplace_ckSum (bs : List Byte) : (s.phReplace bs).ckSum = s.ckSum := rfl
@[simp] theorem phReplace_phbuf (bs : List Byte) : (s.phReplace bs).phbuf = phWrite (Vector.replicate 40 0) 0 bs := rfl
@[simp] theorem phReplace_phLen (bs : List Byte) : (s.phReplace bs).phLen = bs.length := rfl
@[simp] theorem phReplace_vok (bs : List Byte) : (s.phReplace bs).vok = s.vok := rfl
@[simp] theorem phReplace_err (bs : List Byte) : (s.phReplace bs).err = s.err := rfl
@[simp] theorem phReplace_errcmd (bs : List Byte) : (s.phReplace bs).errcmd = s.errcmd := rfl
@[simp] theorem phReplace_erraddr (bs : List Byte) : (s.phReplace bs).erraddr = s.erraddr := rfl
@[simp] theorem phReplace_bufLen (bs : List Byte) : (s.phReplace bs).bufLen = s.bufLen := rfl
@[simp] theorem phReplace_pending (bs : List Byte) : (s.phReplace bs).pending = s.pending := rfl
@[simp] theorem phReplace_reply (bs : List Byte) : (s.phReplace bs).reply = s.reply := rfl

@[simp] theorem raise_mem (e : CommandError) (w : Word) : (s.raise e w).mem = s.mem := rfl
@[simp] theorem raise_base (e : CommandError) (w : Word) : (s.raise e w).base = s.base := rfl
@[simp] theorem raise_wdata (e : CommandError) (w : Word) : (s.raise e w).wdata = s.wdata := rfl
@[simp] theorem raise_rdata (e : CommandError) (w : Word) : (s.raise e w).rdata = s.rdata := rfl
@[simp] theorem raise_ckEnd (e : CommandError) (w : Word) : (s.raise e w).ckEnd = s.ckEnd := rfl
@[simp] theorem raise_ckSum (e : CommandError) (w : Word) : (s.raise e w).ckSum = s.ckSum := rfl
@[simp] theorem raise_phbuf (e : CommandError) (w : Word) : (s.raise e w).phbuf = s.phbuf := rfl
@[simp] theorem raise_phLen (e : CommandError) (w : Word) : (s.raise e w).phLen = s.phLen := rfl
@[simp] theorem raise_vok (e : CommandError) (w : Word) : (s.raise e w).vok = s.vok := rfl
@[simp] theorem raise_err (e : CommandError) (w : Word) : (s.raise e w).err = errorCode e.kind := rfl
@[simp] theorem raise_errcmd (e : CommandError) (w : Word) : (s.raise e w).errcmd = w := rfl
@[simp] theorem raise_erraddr (e : CommandError) (w : Word) : (s.raise e w).erraddr = e.addr := rfl
@[simp] theorem raise_bufLen (e : CommandError) (w : Word) : (s.raise e w).bufLen = s.bufLen := rfl
@[simp] theorem raise_pending (e : CommandError) (w : Word) : (s.raise e w).pending = s.pending := rfl
@[simp] theorem raise_reply (e : CommandError) (w : Word) : (s.raise e w).reply = s.reply := rfl

@[simp] theorem clearError_mem : (s.clearError).mem = s.mem := rfl
@[simp] theorem clearError_base : (s.clearError).base = s.base := rfl
@[simp] theorem clearError_wdata : (s.clearError).wdata = s.wdata := rfl
@[simp] theorem clearError_rdata : (s.clearError).rdata = s.rdata := rfl
@[simp] theorem clearError_ckEnd : (s.clearError).ckEnd = s.ckEnd := rfl
@[simp] theorem clearError_ckSum : (s.clearError).ckSum = s.ckSum := rfl
@[simp] theorem clearError_phbuf : (s.clearError).phbuf = s.phbuf := rfl
@[simp] theorem clearError_phLen : (s.clearError).phLen = s.phLen := rfl
@[simp] theorem clearError_vok : (s.clearError).vok = s.vok := rfl
@[simp] theorem clearError_err : (s.clearError).err = 0 := rfl
@[simp] theorem clearError_errcmd : (s.clearError).errcmd = 0 := rfl
@[simp] theorem clearError_erraddr : (s.clearError).erraddr = 0 := rfl
@[simp] theorem clearError_bufLen : (s.clearError).bufLen = s.bufLen := rfl
@[simp] theorem clearError_pending : (s.clearError).pending = s.pending := rfl
@[simp] theorem clearError_reply : (s.clearError).reply = s.reply := rfl

@[simp] theorem applyReset_mem : (s.applyReset).mem = s.mem := rfl
@[simp] theorem applyReset_base : (s.applyReset).base = 0 := rfl
@[simp] theorem applyReset_wdata : (s.applyReset).wdata = 0 := rfl
@[simp] theorem applyReset_rdata : (s.applyReset).rdata = 0 := rfl
@[simp] theorem applyReset_ckEnd : (s.applyReset).ckEnd = 0 := rfl
@[simp] theorem applyReset_ckSum : (s.applyReset).ckSum = 0 := rfl
@[simp] theorem applyReset_phbuf : (s.applyReset).phbuf = Vector.replicate 40 0 := rfl
@[simp] theorem applyReset_phLen : (s.applyReset).phLen = 0 := rfl
@[simp] theorem applyReset_vok : (s.applyReset).vok = false := rfl
@[simp] theorem applyReset_err : (s.applyReset).err = 0 := rfl
@[simp] theorem applyReset_errcmd : (s.applyReset).errcmd = 0 := rfl
@[simp] theorem applyReset_erraddr : (s.applyReset).erraddr = 0 := rfl
@[simp] theorem applyReset_bufLen : (s.applyReset).bufLen = s.bufLen := rfl
@[simp] theorem applyReset_pending : (s.applyReset).pending = s.pending := rfl
@[simp] theorem applyReset_reply : (s.applyReset).reply = s.reply := rfl

end Sys2Proof.Machine.State
end

