-- ==== Sys2Proof/Laws/Memory.lean ====
section
/-! SUPPORT. The laws of the packet buffer: what a byte reads as after a write, at every memory; that every memory operation
keeps the canonical form; and that two canonical memories that read alike are equal. -/

namespace Sys2Proof.Machine.Memory

variable (m : Memory) (a c : Nat) (b : Byte)

theorem readByte_erase : (erase m a).readByte c = if c = a then unlisted else m.readByte c := by
  induction m with
  | nil => simp [erase, readByte]
  | cons e m ih =>
    obtain ⟨k, x⟩ := e
    by_cases hk : k = a
    · subst hk
      by_cases hc : c = k
      · subst hc; simpa [erase] using ih
      · simp [erase, readByte, ih, hc, Ne.symm hc]
    · by_cases hc : c = a
      · subst hc; simp [erase, readByte, ih, hk]
      · simp [erase, readByte, ih, hk, hc]

theorem readByte_insert (h : ∀ e ∈ m, e.1 ≠ a) :
    (insert m a b).readByte c = if c = a then b else m.readByte c := by
  induction m with
  | nil => simp [insert, readByte, eq_comm]
  | cons e m ih =>
    obtain ⟨k, x⟩ := e
    have hk : k ≠ a := h (k, x) (by simp)
    have ih := ih fun e he => h e (by simp [he])
    by_cases hlt : a < k
    · simp [insert, hlt, readByte, eq_comm]
    · by_cases hc : c = a
      · subst hc; simp [insert, hlt, readByte, ih, hk]
      · simp [insert, hlt, readByte, ih, hc]

theorem mem_erase (e : Host.Cell) : e ∈ erase m a ↔ e ∈ m ∧ e.1 ≠ a := by
  induction m with
  | nil => simp [erase]
  | cons d m ih =>
    obtain ⟨k, x⟩ := d
    by_cases hk : k = a
    · subst hk
      simp only [erase, if_true, ih, List.mem_cons]
      constructor
      · rintro ⟨h, h'⟩; exact ⟨.inr h, h'⟩
      · rintro ⟨rfl | h, h'⟩
        · exact absurd rfl h'
        · exact ⟨h, h'⟩
    · simp only [erase, if_neg hk, List.mem_cons, ih]
      constructor
      · rintro (rfl | ⟨h, h'⟩)
        · exact ⟨.inl rfl, hk⟩
        · exact ⟨.inr h, h'⟩
      · rintro ⟨rfl | h, h'⟩
        · exact .inl rfl
        · exact .inr ⟨h, h'⟩

theorem mem_insert (e : Host.Cell) : e ∈ insert m a b ↔ e = (a, b) ∨ e ∈ m := by
  induction m with
  | nil => simp [insert]
  | cons d m ih =>
    obtain ⟨k, x⟩ := d
    by_cases hlt : a < k
    · simp [insert, hlt]
    · simp only [insert, if_neg hlt, List.mem_cons, ih]
      tauto

/-- A byte written is the byte read, and no other byte changes, whatever the memory's form. -/
theorem readByte_writeByte : (writeByte m a b).readByte c = if c = a then b else m.readByte c := by
  unfold writeByte
  split
  · rename_i hb; rw [readByte_erase, hb]
  · rw [readByte_insert _ _ _ _ fun e he => ((mem_erase m a e).1 he).2, readByte_erase]
    split <;> rfl

/-- What is listed after a write: the written index, or what was listed. -/
theorem mem_writeByte (e : Host.Cell) (h : e ∈ writeByte m a b) : e = (a, b) ∨ e ∈ m := by
  unfold writeByte at h
  split at h
  · exact .inr ((mem_erase m a e).1 h).1
  · rcases (mem_insert _ a b e).1 h with h | h
    · exact .inl h
    · exact .inr ((mem_erase m a e).1 h).1

/-- The canonical form, as an order and a condition on each entry. -/
theorem wf_iff : wf m = true ↔ m.Pairwise (fun x y => x.1 < y.1) ∧ ∀ e ∈ m, e.2 ≠ unlisted := by
  induction m with
  | nil => simp [wf]
  | cons e m ih =>
    cases m with
    | nil => obtain ⟨k, x⟩ := e; simp [wf]
    | cons e' m =>
      obtain ⟨k, x⟩ := e
      obtain ⟨k', x'⟩ := e'
      simp only [wf, Bool.and_eq_true, decide_eq_true_eq, ih, List.pairwise_cons, List.mem_cons, forall_eq_or_imp]
      constructor
      · rintro ⟨⟨hx, hk⟩, ⟨h1, h2⟩, hx', h3⟩
        exact ⟨⟨⟨hk, fun e he => lt_trans hk (h1 e he)⟩, h1, h2⟩, hx, hx', h3⟩
      · rintro ⟨⟨⟨hk, -⟩, h1, h2⟩, hx, hx', h3⟩
        exact ⟨⟨hx, hk⟩, ⟨h1, h2⟩, hx', h3⟩

theorem pairwise_erase (h : m.Pairwise fun x y => x.1 < y.1) : (erase m a).Pairwise fun x y => x.1 < y.1 := by
  induction m with
  | nil => simp [erase]
  | cons e m ih =>
    obtain ⟨k, x⟩ := e
    rw [List.pairwise_cons] at h
    by_cases hk : k = a
    · simpa [erase, hk] using ih h.2
    · simp only [erase, if_neg hk, List.pairwise_cons]
      exact ⟨fun e he => h.1 e ((mem_erase m a e).1 he).1, ih h.2⟩

theorem pairwise_insert (h : m.Pairwise fun x y => x.1 < y.1) (ha : ∀ e ∈ m, e.1 ≠ a) :
    (insert m a b).Pairwise fun x y => x.1 < y.1 := by
  induction m with
  | nil => simp [insert]
  | cons e m ih =>
    obtain ⟨k, x⟩ := e
    rw [List.pairwise_cons] at h
    have hk : k ≠ a := ha (k, x) (by simp)
    by_cases hlt : a < k
    · simp only [insert, if_pos hlt, List.pairwise_cons, List.mem_cons, forall_eq_or_imp]
      exact ⟨⟨hlt, fun e he => lt_trans hlt (h.1 e he)⟩, h.1, h.2⟩
    · simp only [insert, if_neg hlt, List.pairwise_cons]
      refine ⟨fun e he => ?_, ih h.2 fun e he => ha e (by simp [he])⟩
      rcases (mem_insert m a b e).1 he with rfl | he
      · simp only; omega
      · exact h.1 e he

/-- A byte write keeps the canonical form. -/
theorem wf_writeByte (h : wf m = true) : wf (writeByte m a b) = true := by
  rw [wf_iff] at h ⊢
  unfold writeByte
  split
  · exact ⟨pairwise_erase m a h.1, fun e he => h.2 e ((mem_erase m a e).1 he).1⟩
  · rename_i hb
    refine ⟨pairwise_insert _ _ _ (pairwise_erase m a h.1) fun e he => ((mem_erase m a e).1 he).2, fun e he => ?_⟩
    rcases (mem_insert _ a b e).1 he with rfl | he
    · exact hb
    · exact h.2 e ((mem_erase m a e).1 he).1

/-- A write of several bytes keeps the canonical form. -/
theorem wf_writeBytes (bs : List Byte) (h : wf m = true) : wf (writeBytes m a bs) = true := by
  induction bs generalizing m a with
  | nil => exact h
  | cons b bs ih => exact ih _ _ (wf_writeByte m a b h)

/-- The bytes written are the bytes read, and every byte outside them reads as before. -/
theorem readByte_writeBytes (bs : List Byte) :
    (writeBytes m a bs).readByte c =
      if a ≤ c ∧ c < a + bs.length then bs.getD (c - a) 0 else m.readByte c := by
  induction bs generalizing m a with
  | nil => simp [writeBytes]
  | cons b bs ih =>
    simp only [writeBytes, ih, readByte_writeByte, List.length_cons]
    by_cases h1 : c = a
    · subst h1; simp
    · by_cases h2 : a + 1 ≤ c ∧ c < a + 1 + bs.length
      · rw [if_pos h2, if_pos (by omega), show c - a = (c - (a + 1)) + 1 by omega]; simp
      · rw [if_neg h2, if_neg h1, if_neg (by omega)]

/-- What is listed after a write of several bytes: an index in the written span, or what was listed. -/
theorem mem_writeBytes (bs : List Byte) (e : Host.Cell) (h : e ∈ writeBytes m a bs) :
    (a ≤ e.1 ∧ e.1 < a + bs.length) ∨ e ∈ m := by
  induction bs generalizing m a with
  | nil => exact .inr h
  | cons b bs ih =>
    rcases ih _ _ h with h | h
    · left; simp only [List.length_cons]; omega
    · rcases mem_writeByte m a b e h with rfl | h
      · left; simp
      · exact .inr h

/-- An index nothing lists reads as `unlisted`. -/
theorem readByte_of_not_listed (h : ∀ e ∈ m, e.1 ≠ a) : m.readByte a = unlisted := by
  induction m with
  | nil => rfl
  | cons e m ih =>
    obtain ⟨k, x⟩ := e
    rw [readByte, if_neg (h (k, x) (by simp))]
    exact ih fun e he => h e (by simp [he])

/-- Equal memories are equal data: two canonical lists that read alike are the same list. -/
theorem ext_of_wf (m' : Memory) (h : wf m = true) (h' : wf m' = true) (hr : ∀ a, m.readByte a = m'.readByte a) :
    m = m' := by
  rw [wf_iff] at h h'
  induction m generalizing m' with
  | nil =>
    cases m' with
    | nil => rfl
    | cons e m' =>
      have := hr e.1
      simp only [readByte, if_true] at this
      exact absurd this.symm (h'.2 e (by simp))
  | cons e m ih =>
    cases m' with
    | nil =>
      have := hr e.1
      simp only [readByte, if_true] at this
      exact absurd this (h.2 e (by simp))
    | cons e' m' =>
      obtain ⟨k, x⟩ := e
      obtain ⟨k', x'⟩ := e'
      simp only [List.pairwise_cons, List.mem_cons, forall_eq_or_imp] at h h'
      have below : ∀ (n : Memory) (j : Nat), (∀ e ∈ n, j < e.1) → ∀ i ≤ j, n.readByte i = unlisted :=
        fun n j hn i hi => readByte_of_not_listed n i fun e he => by have := hn e he; omega
      have hk : k = k' := by
        rcases lt_trichotomy k k' with hlt | heq | hgt
        · have := hr k
          simp only [readByte, if_true, if_neg (show ¬ k' = k by omega)] at this
          rw [below m' k' h'.1.1 k (by omega)] at this
          exact absurd this h.2.1
        · exact heq
        · have := hr k'
          simp only [readByte, if_true, if_neg (show ¬ k = k' by omega)] at this
          rw [below m k h.1.1 k' (by omega)] at this
          exact absurd this.symm h'.2.1
      subst hk
      have hx : x = x' := by simpa [readByte] using hr k
      subst hx
      congr 1
      refine ih m' ⟨h.1.2, h.2.2⟩ ⟨h'.1.2, h'.2.2⟩ fun a => ?_
      by_cases ha : k = a
      · subst ha; rw [below m k h.1.1 k le_rfl, below m' k h'.1.1 k le_rfl]
      · simpa [readByte, ha] using hr a

/-- The memory of `State.reset` is canonical. -/
theorem wf_reset : wf State.reset.mem = true := rfl

end Sys2Proof.Machine.Memory
end

