-- ==== Sys2Proof/Laws/Bytes.lean ====
section
/-! SUPPORT. The laws of big-endian numbers: lengths, the round trip between a number and its bytes, and what a MEM read
after a MEM write gives. -/

namespace Sys2Proof.Machine

@[simp] theorem beBytes_length (n v : Nat) : (beBytes n v).length = n := by
  induction n with
  | zero => rfl
  | succ n ih => simp [beBytes, ih]

/-- Byte j of the n big-endian bytes of v is `(v >> (8*(n-1-j))) & 0xFF` (R12). -/
theorem beBytes_getD (n v j : Nat) (h : j < n) :
    (beBytes n v).getD j 0 = BitVec.ofNat 8 ((v >>> (8 * (n - 1 - j))) &&& 0xFF) := by
  induction n generalizing j with
  | zero => omega
  | succ n ih =>
    cases j with
    | zero => simp [beBytes]
    | succ j =>
      rw [beBytes, List.getD_cons_succ, ih j (by omega)]
      congr 4; omega

theorem beValue_lt (bs : List Byte) : beValue bs < 2 ^ (8 * bs.length) := by
  induction bs with
  | nil => simp [beValue]
  | cons b bs ih =>
    have hb := b.isLt
    simp only [beValue, List.length_cons, Nat.shiftLeft_eq]
    rw [show 8 * (bs.length + 1) = 8 * bs.length + 8 by ring, pow_add]
    nlinarith

theorem beValue_append (xs ys : List Byte) : beValue (xs ++ ys) = beValue xs * 2 ^ (8 * ys.length) + beValue ys := by
  induction xs with
  | nil => simp [beValue]
  | cons x xs ih =>
    simp only [List.cons_append, beValue, ih, List.length_append, Nat.shiftLeft_eq, Nat.mul_add, pow_add]
    ring

/-- A number read back from its n big-endian bytes is its low 8n bits. -/
theorem beValue_beBytes (n v : Nat) : beValue (beBytes n v) = v % 2 ^ (8 * n) := by
  induction n with
  | zero => simp [beBytes, beValue, Nat.mod_one]
  | succ n ih =>
    simp only [beBytes, beValue, beBytes_length, ih, BitVec.toNat_ofNat, Nat.shiftLeft_eq]
    have h255 : (v >>> (8 * n)) &&& 255 = v / 2 ^ (8 * n) % 2 ^ 8 := by
      rw [Nat.shiftRight_eq_div_pow]; exact Nat.and_two_pow_sub_one_eq_mod _ 8
    rw [h255, Nat.mod_mod, show 8 * (n + 1) = 8 * n + 8 by ring, pow_add, Nat.mod_mul]
    ring

@[simp] theorem State.memBytes_length (s : State) (a n : Nat) : (s.memBytes a n).length = n := by
  simp [State.memBytes]

theorem State.memBytes_getD (s : State) (a n j : Nat) (h : j < n) : (s.memBytes a n).getD j 0 = s.byteAt (a + j) := by
  simp [State.memBytes, h]

theorem State.memRead_one (s : State) (a : Nat) : s.memRead a 1 = (s.byteAt a).toNat := by
  simp [State.memRead, State.memBytes, List.range', beValue]

theorem State.memRead_two (s : State) (a : Nat) :
    s.memRead a 2 = (s.byteAt a).toNat * 2 ^ 8 + (s.byteAt (a + 1)).toNat := by
  simp [State.memRead, State.memBytes, List.range', beValue, Nat.shiftLeft_eq]

theorem State.memRead_four (s : State) (a : Nat) :
    s.memRead a 4 = (s.byteAt a).toNat * 2 ^ 24 + (s.byteAt (a + 1)).toNat * 2 ^ 16 +
      (s.byteAt (a + 2)).toNat * 2 ^ 8 + (s.byteAt (a + 3)).toNat := by
  simp [State.memRead, State.memBytes, List.range', beValue, Nat.shiftLeft_eq, Nat.add_assoc]

/-- What a byte of MEM reads as after `MemWrite(a, n, v)`. -/
theorem State.byteAt_memWrite (s : State) (a n v c : Nat) :
    (s.memWrite a n v).byteAt c =
      if a ≤ c ∧ c < a + n then BitVec.ofNat 8 ((v >>> (8 * (n - 1 - (c - a)))) &&& 0xFF) else s.byteAt c := by
  simp only [State.byteAt, State.memWrite_mem, Memory.readByte_writeBytes, beBytes_length]
  split
  · rw [beBytes_getD _ _ _ (by omega)]
  · rfl

/-- `MemRead` after `MemWrite` at the same place gives the low 8n bits written. -/
theorem State.memRead_memWrite (s : State) (a n v : Nat) : (s.memWrite a n v).memRead a n = v % 2 ^ (8 * n) := by
  have h : (s.memWrite a n v).memBytes a n = beBytes n v := by
    apply List.ext_getElem (by simp)
    intro i hi _
    have hin : i < n := by simpa using hi
    have h1 := State.memBytes_getD (s.memWrite a n v) a n i hin
    have h2 := beBytes_getD n v i hin
    rw [State.byteAt_memWrite, if_pos (by omega), show a + i - a = i by omega, ← h2] at h1
    simpa [List.getD_eq_getElem?_getD, hin] using h1
  rw [State.memRead, h, beValue_beBytes]

/-- A MEM write inside the buffer lists no index outside it. -/
theorem State.memWrite_inBuffer (s : State) (a n v : Nat) (h : ∀ c ∈ s.mem, c.1 < s.bufLen.toNat)
    (ha : n = 0 ∨ a + n ≤ s.bufLen.toNat) : ∀ c ∈ (s.memWrite a n v).mem, c.1 < s.bufLen.toNat := by
  intro c hc
  rcases Memory.mem_writeBytes _ _ _ _ hc with h' | h'
  · rw [beBytes_length] at h'; omega
  · exact h c h'

end Sys2Proof.Machine
end

