-- ==== Sys2Proof/Laws/PseudoHeader.lean ====
section
/-! SUPPORT. What PHBUF holds after an append and after a replacement. -/

namespace Sys2Proof.Machine

theorem toList_setIfInBounds_getD (p : Vector Byte 40) (k i : Nat) (b : Byte) :
    (p.setIfInBounds k b).toList.getD i 0 = if k = i ∧ i < 40 then b else p.toList.getD i 0 := by
  rw [Vector.toList_setIfInBounds, List.getD_eq_getElem?_getD, List.getD_eq_getElem?_getD, List.getElem?_set]
  by_cases hk : k = i
  · subst hk
    by_cases hi : k < 40
    · simp [hi]
    · simp [hi, Vector.length_toList]
  · simp [hk]

/-- Byte i after `phWrite p k bs`. -/
theorem phWrite_getD (p : Vector Byte 40) (k i : Nat) (bs : List Byte) :
    (phWrite p k bs).toList.getD i 0 =
      if k ≤ i ∧ i < k + bs.length ∧ i < 40 then bs.getD (i - k) 0 else p.toList.getD i 0 := by
  induction bs generalizing p k with
  | nil => simp only [phWrite, List.length_nil]; rw [if_neg (by omega)]
  | cons b bs ih =>
    rw [phWrite, ih, toList_setIfInBounds_getD, List.length_cons]
    by_cases hki : k = i
    · subst hki
      by_cases h40 : k < 40
      · rw [if_neg (by omega), if_pos ⟨rfl, h40⟩, if_pos ⟨le_rfl, by omega, h40⟩]; simp
      · rw [if_neg (by omega), if_neg (by omega), if_neg (by omega)]
    · by_cases h : k + 1 ≤ i ∧ i < k + 1 + bs.length ∧ i < 40
      · rw [if_pos h, if_pos (by omega), show i - k = (i - (k + 1)) + 1 by omega]; simp
      · rw [if_neg h, if_neg (by omega), if_neg (by omega)]

theorem State.phByte_of_le (s : State) (i : Nat) (h : 40 ≤ i) : s.phByte i = 0 := by
  simp [State.phByte, List.getD_eq_getElem?_getD, h, Vector.length_toList]

/-- Byte i of PHBUF after an append. -/
theorem State.phByte_phAppend (s : State) (bs : List Byte) (i : Nat) :
    (s.phAppend bs).phByte i =
      if s.phLen ≤ i ∧ i < s.phLen + bs.length ∧ i < 40 then bs.getD (i - s.phLen) 0 else s.phByte i :=
  phWrite_getD _ _ _ _

/-- Byte i of a zeroed PHBUF. -/
theorem zeroedPhbuf_getD (i : Nat) : (Vector.replicate 40 (0 : Byte)).toList.getD i 0 = 0 := by
  rw [Vector.toList_replicate, List.getD_eq_getElem?_getD, List.getElem?_replicate]
  split <;> rfl

/-- Byte i of PHBUF after a replacement. -/
theorem State.phByte_phReplace (s : State) (bs : List Byte) (i : Nat) :
    (s.phReplace bs).phByte i = if i < bs.length ∧ i < 40 then bs.getD i 0 else 0 := by
  have h := phWrite_getD (Vector.replicate 40 0) 0 i bs
  rw [zeroedPhbuf_getD] at h
  rw [State.phByte, State.phReplace_phbuf, h]
  simp only [Nat.zero_le, true_and, Nat.zero_add, Nat.sub_zero]

/-- The pseudo-header, byte by byte. -/
theorem State.pseudoHeader_length (s : State) : s.pseudoHeader.length = min s.phLen 40 := by
  simp [State.pseudoHeader, Vector.length_toList]

theorem State.pseudoHeader_getD (s : State) (i : Nat) (h : i < s.phLen) : s.pseudoHeader.getD i 0 = s.phByte i := by
  simp [State.pseudoHeader, State.phByte, List.getD_eq_getElem?_getD, h]

end Sys2Proof.Machine
end

