-- ==== Sys2Proof/Laws/Command.lean ====
section
/-! SUPPORT. Everything a command can do, said once: `runCommand`'s cases, and that each command's meaning is a
`runCommand` under the command's own word. -/

namespace Sys2Proof.Machine

variable {w : Word} {cs : List (Option CommandError)} {f : State → State} {s t : State}

theorem State.locked_iff (s : State) : s.locked = true ↔ s.err ≠ 0 := by simp [State.locked]

theorem State.not_locked_iff (s : State) : s.locked = false ↔ s.err = 0 := by simp [State.locked]

theorem errorCode_ne_zero (k : ErrorKind) : errorCode k ≠ 0 := by cases k <;> decide

/-- A locked engine discards. -/
theorem runCommand_locked (h : s.err ≠ 0) :
    runCommand w cs f s = .next s := by
  rw [runCommand, if_pos (s.locked_iff.2 h)]

/-- The first failing check raises its error. -/
theorem runCommand_error {e : CommandError} (h : s.err = 0)
    (he : firstError cs = some e) : runCommand w cs f s = .next (s.raise e w) := by
  simp [runCommand, State.locked, h, he]

/-- With every check passed, the effect is taken. -/
theorem runCommand_ok (h : s.err = 0)
    (he : firstError cs = none) : runCommand w cs f s = .next (f s) := by
  simp [runCommand, State.locked, h, he]

/-- Everything `runCommand` can answer. -/
theorem runCommand_cases (h : runCommand w cs f s = .next t) :
    (s.err ≠ 0 ∧ t = s) ∨ (∃ e, s.err = 0 ∧ firstError cs = some e ∧ t = s.raise e w) ∨
      (s.err = 0 ∧ firstError cs = none ∧ t = f s) := by
  by_cases hs : s.err = 0
  · cases he : firstError cs with
    | none => rw [runCommand_ok hs he] at h; cases h; exact .inr (.inr ⟨hs, rfl, rfl⟩)
    | some e => rw [runCommand_error hs he] at h; cases h; exact .inr (.inl ⟨e, hs, rfl, rfl⟩)
  · rw [runCommand_locked hs] at h; cases h; exact .inl ⟨hs, rfl⟩

/-- `runCommand` always answers a next state. -/
theorem runCommand_next (w : Word) (cs : List (Option CommandError)) (f : State → State) (s : State) :
    ∃ t, runCommand w cs f s = .next t := by
  unfold runCommand
  split
  · exact ⟨_, rfl⟩
  · split <;> exact ⟨_, rfl⟩

/-- Every command's meaning is a `runCommand` under the command's own word, with checks and an effect of its own. -/
theorem exec_eq_runCommand (i : Instr) (s : State) : ∃ cs f, exec i s = runCommand (encode i) cs f s := by
  cases i <;> simp only [exec, execNop, execOfs, execLd8, execLd16, execLd32, execSt8, execSt16, execSt32, execFld8, execFld16,
    execFld32, execFst8, execFst16, execFst32, execFmsk, execFext, execFins, execPhclr, execPhb8,
    execPhb16, execPhb32, execPhcpy, execPh4, execPh6, execCksum, execCkver, execCkapp, execCkclr] <;>
    exact ⟨_, _, rfl⟩

/-! ## The checks -/

theorem fieldCheck_eq_none {w sh n : Nat} : fieldCheck w sh n = none ↔ w + sh ≤ n := by
  unfold fieldCheck; split <;> simp <;> omega

theorem fieldCheck_of_lt {w sh n : Nat} (h : n < w + sh) : fieldCheck w sh n = some ⟨.field, 0⟩ := by
  simp [fieldCheck, h]

theorem State.rangeCheck_eq_none {s : State} : s.rangeCheck = none ↔ s.base.toNat ≤ s.ckEnd.toNat := by
  unfold State.rangeCheck; split <;> simp <;> omega

theorem State.rangeCheck_of_lt {s : State} (h : s.ckEnd.toNat < s.base.toNat) : s.rangeCheck = some ⟨.range, 0⟩ := by
  simp [State.rangeCheck, h]

theorem State.roomCheck_eq_none {s : State} {k : Nat} : s.roomCheck k = none ↔ s.phLen + k ≤ 40 := by
  unfold State.roomCheck Config.phMax; split <;> simp <;> omega

theorem State.roomCheck_of_lt {s : State} {k : Nat} (h : 40 < s.phLen + k) : s.roomCheck k = some ⟨.phovf, 0⟩ := by
  simp [State.roomCheck, Config.phMax, h]

theorem State.spanCheck_eq_none {s : State} {a n : Nat} : s.spanCheck a n = none ↔ n = 0 ∨ a + n ≤ s.bufLen.toNat := by
  unfold State.spanCheck State.inBounds; simp; omega

theorem State.spanCheck_of_not {s : State} {a n : Nat} (hn : n ≠ 0) (h : s.bufLen.toNat < a + n) :
    s.spanCheck a n = some ⟨.bounds, s.boundsAddr a⟩ := by
  have : ¬ (n = 0 ∨ a + n ≤ s.bufLen.toNat) := by omega
  simp [State.spanCheck, State.inBounds, this]

/-- ERRADDR of BOUNDS as a number (R196). -/
theorem State.boundsAddr_toNat (s : State) (a : Nat) :
    (s.boundsAddr a).toNat = min (max a s.bufLen.toNat) 0xFFFFFFFF := by
  simp only [State.boundsAddr, BitVec.toNat_ofNat]
  apply Nat.mod_eq_of_lt
  omega

@[simp] theorem firstError_nil : firstError [] = none := rfl
@[simp] theorem firstError_some (e : CommandError) (cs : List (Option CommandError)) :
    firstError (some e :: cs) = some e := rfl
@[simp] theorem firstError_none (cs : List (Option CommandError)) : firstError (none :: cs) = firstError cs := rfl

/-- An error that some check raised is one of the checks. -/
theorem firstError_mem {e : CommandError} (h : firstError cs = some e) : some e ∈ cs := by
  induction cs with
  | nil => simp at h
  | cons c cs ih =>
    cases c with
    | none => exact List.mem_cons_of_mem _ (ih h)
    | some d => cases h; simp

end Sys2Proof.Machine
end

