-- ==== Sys2Proof/Laws/BitField.lean ====
section
/-! SUPPORT. What the field operations do bit by bit. -/

namespace Sys2Proof.Machine

theorem testBit_mask (w j : Nat) : (mask w).testBit j = decide (j < w) := by
  simp [mask, Nat.testBit_two_pow_sub_one]

theorem mask_lt (w : Nat) : mask w < 2 ^ w := by
  have := Nat.two_pow_pos w
  simp only [mask]; omega

/-- `v & mask(W)` is `v mod 2^W`. -/
theorem and_mask (v w : Nat) : v &&& mask w = v % 2 ^ w := Nat.and_two_pow_sub_one_eq_mod v w

theorem State.dataLow_eq (s : State) (n : Nat) : s.dataLow n = s.wdata.toNat % 2 ^ (8 * n) := and_mask _ _

/-- Bit j of an extracted field is bit S + j of its container, for j below W. -/
theorem testBit_extractField (v w sh j : Nat) :
    (extractField v w sh).testBit j = (decide (j < w) && v.testBit (sh + j)) := by
  simp [extractField, testBit_mask, Nat.testBit_shiftRight, Bool.and_comm]

theorem extractField_lt (v w sh : Nat) : extractField v w sh < 2 ^ w := by
  rw [extractField, and_mask]; exact Nat.mod_lt _ (Nat.two_pow_pos w)

/-- Bit j of a field's mask. -/
theorem testBit_fieldMask (w sh j : Nat) : (fieldMask w sh).testBit j = decide (sh ≤ j ∧ j < sh + w) := by
  simp only [fieldMask, Nat.testBit_shiftLeft, testBit_mask, ge_iff_le, ← Bool.decide_and]
  congr 1
  simp only [eq_iff_iff]
  omega

/-- Bit j of the N-bit complement. -/
theorem testBit_compl {n v : Nat} (h : v < 2 ^ n) (j : Nat) : (compl n v).testBit j = (decide (j < n) && !v.testBit j) := by
  rw [compl, show 2 ^ n - 1 - v = 2 ^ n - (v + 1) by omega, Nat.testBit_two_pow_sub_succ h]

theorem fieldMask_lt {w sh n : Nat} (h : w + sh ≤ n) : fieldMask w sh < 2 ^ n := by
  rw [fieldMask, Nat.shiftLeft_eq]
  calc mask w * 2 ^ sh < 2 ^ w * 2 ^ sh := Nat.mul_lt_mul_of_pos_right (mask_lt w) (Nat.two_pow_pos sh)
    _ = 2 ^ (w + sh) := (pow_add 2 w sh).symm
    _ ≤ 2 ^ n := Nat.pow_le_pow_right (by decide) h

/-- Bit j of a container after an insert: the field's bits come from the data, every other bit stays. -/
theorem testBit_insertField {n v w sh : Nat} (x j : Nat) (h : w + sh ≤ n) (hv : v < 2 ^ n) :
    (insertField n v w sh x).testBit j = if sh ≤ j ∧ j < sh + w then x.testBit (j - sh) else v.testBit j := by
  simp only [insertField, Nat.testBit_or, Nat.testBit_and, testBit_compl (fieldMask_lt h), testBit_fieldMask,
    Nat.testBit_shiftLeft, testBit_mask]
  by_cases hf : sh ≤ j ∧ j < sh + w
  · have : j - sh < w := by omega
    simp [hf, this]
  · by_cases hs : sh ≤ j
    · have : ¬ j - sh < w := by omega
      by_cases hj : j < n
      · simp [hf, this, hj]
      · have hz : v.testBit j = false := Nat.testBit_lt_two_pow (lt_of_lt_of_le hv (Nat.pow_le_pow_right (by decide) (by omega)))
        simp [hz, this, hf]
    · have hj : j < n ∨ n ≤ j := lt_or_ge j n
      rcases hj with hj | hj
      · simp [hs, hj]
      · have hz : v.testBit j = false := Nat.testBit_lt_two_pow (lt_of_lt_of_le hv (Nat.pow_le_pow_right (by decide) hj))
        simp [hz, hs]

/-- Bit j of a number is bit j mod 8 of its byte j / 8. -/
theorem testBit_byte (v j : Nat) : v.testBit j = ((v >>> (8 * (j / 8))) &&& 0xFF).testBit (j % 8) := by
  have h : (0xFF : Nat).testBit (j % 8) = true := by
    rw [show (0xFF : Nat) = 2 ^ 8 - 1 by norm_num, Nat.testBit_two_pow_sub_one]; simp; omega
  rw [Nat.testBit_and, Nat.testBit_shiftRight, h, Bool.and_true, Nat.div_add_mod]

end Sys2Proof.Machine
end

