-- ==== Sys2Proof/Laws/Checksum.lean ====
section
/-! SUPPORT. The pieces of the checksum: the word sum along a list, the rounds of the fold, the stream's length. -/

namespace Sys2Proof.Machine

@[simp] theorem wordSum_nil : wordSum [] = 0 := rfl

theorem wordSum_single (b : Byte) : wordSum [b] = b.toNat * 256 := by simp [wordSum, Nat.shiftLeft_eq]

theorem wordSum_cons_cons (b c : Byte) (bs : List Byte) :
    wordSum (b :: c :: bs) = b.toNat * 256 + c.toNat + wordSum bs := by
  simp [wordSum, Nat.shiftLeft_eq]

/-- A sum that fits takes no round. -/
theorem foldRounds_of_le {x : Nat} (h : x ≤ 0xFFFF) (k : Nat) : foldRounds k x = x := by
  cases k with
  | zero => rfl
  | succ k => rw [foldRounds, if_neg (by omega)]

/-- A sum that does not fit takes a round. -/
theorem foldRounds_of_gt {x : Nat} (h : 0xFFFF < x) (k : Nat) :
    foldRounds (k + 1) x = foldRounds k ((x &&& 0xFFFF) + (x >>> 16)) := by
  rw [foldRounds, if_pos h]

/-- One round in plain arithmetic: quotient and remainder by 2^16. -/
theorem foldRound_eq (x : Nat) : (x &&& 0xFFFF) + (x >>> 16) = x % 2 ^ 16 + x / 2 ^ 16 := by
  rw [Nat.shiftRight_eq_div_pow, show (0xFFFF : Nat) = 2 ^ 16 - 1 by norm_num, Nat.and_two_pow_sub_one_eq_mod]

@[simp] theorem State.mainRange_length (s : State) (f : Nat) : (s.mainRange f).length = s.rangeLength := by
  simp [State.mainRange]

theorem State.stream_length (s : State) (p : Bool) (fld : Nat) :
    (s.stream p fld).length = (if p then min s.phLen 40 else 0) + s.rangeLength := by
  cases p <;> simp [State.stream, State.pseudoHeader_length]

end Sys2Proof.Machine
end

