-- ==== Sys2Proof/Laws/Step.lean ====
section
/-! SUPPORT. What a step does on each host operation. -/

namespace Sys2Proof.Machine

/-- A step performs the first waiting host operation at the state with it taken off the queue. -/
theorem step_of_pending {s : State} {op : HostOp} {rest : List HostOp} (h : s.pending = op :: rest) :
    step s = hostStep op (s.setPending rest) := by
  simp [step, hostNext, h]

/-- A host write to CMD issues its word. -/
theorem hostStep_cmd (v : Word) (s : State) : hostStep (.regWrite 32 0 v) s = issueCommand v s := rfl

theorem issueCommand_locked {v : Word} {s : State} (h : s.err ≠ 0) : issueCommand v s = .next s := by
  rw [issueCommand, if_pos (s.locked_iff.2 h)]

theorem issueCommand_command {v : Word} {s : State} {i : Instr} (h : s.err = 0) (hd : decode v = .command i) :
    issueCommand v s = exec i s := by
  simp [issueCommand, State.locked, h, hd]

theorem issueCommand_illegal {v : Word} {s : State} {why : IllegalReason} (h : s.err = 0) (hd : decode v = .illegal why) :
    issueCommand v s = .next (s.raise ⟨.illegal, 0⟩ v) := by
  simp [issueCommand, State.locked, h, hd]

/-- A register access that passes the width, alignment and space checks reaches the map. -/
theorem registerAccess_ok {off : Nat} {s : State} {f : State → Host.Outcome State Fault Refusal} (h4 : off % 4 = 0)
    (h : off < 128) : registerAccess 32 off s f = f s := by
  simp [registerAccess, h4, registerSpaceBytes, h]

theorem memoryAccess_ok {a : Nat} {s : State} {f : State → Host.Outcome State Fault Refusal} (h : a < s.bufLen.toNat) :
    memoryAccess a s f = f s := by
  simp [memoryAccess, h]

/-- A register access that answers next passed every check, and answered as its own effect does. -/
theorem registerAccess_cases {width off : Nat} {s t : State} {f : State → Host.Outcome State Fault Refusal}
    (h : registerAccess width off s f = .next t) : width = 32 ∧ off % 4 = 0 ∧ off < 128 ∧ f s = .next t := by
  unfold registerAccess at h
  split at h
  · rename_i hw
    split at h
    · rename_i ho; exact ⟨hw.1, hw.2, ho, h⟩
    · cases h
  · cases h

/-- A memory port access that answers next is inside the buffer, and answered as its own effect does. -/
theorem memoryAccess_cases {a : Nat} {s t : State} {f : State → Host.Outcome State Fault Refusal}
    (h : memoryAccess a s f = .next t) : a < s.bufLen.toNat ∧ f s = .next t := by
  unfold memoryAccess at h
  split at h
  · exact ⟨‹_›, h⟩
  · cases h

/-- Everything a register write can answer with: a command issued, one of three registers set, the latch cleared, or
nothing. -/
theorem writeRegister_cases {off : Nat} {v : Word} {s t : State} (h : writeRegister off v s = .next t) :
    (off = 0 ∧ issueCommand v s = .next t) ∨ t = s.setBase v ∨ t = s.setWdata v ∨ t = s.setCkEnd v ∨
      t = s.clearError ∨ t = s := by
  unfold writeRegister at h
  split at h
  · exact .inl ⟨rfl, h⟩
  all_goals cases h; simp

/-- Everything a command write can answer with: discarded, ILLEGAL latched, or the command run. -/
theorem issueCommand_cases {v : Word} {s t : State} (h : issueCommand v s = .next t) :
    (s.err ≠ 0 ∧ t = s) ∨ (s.err = 0 ∧ (∃ why, decode v = .illegal why) ∧ t = s.raise ⟨.illegal, 0⟩ v) ∨
      (s.err = 0 ∧ ∃ i, decode v = .command i ∧ exec i s = .next t) := by
  by_cases he : s.err = 0
  · cases hd : decode v with
    | command i => rw [issueCommand_command he hd] at h; exact .inr (.inr ⟨he, i, rfl, h⟩)
    | illegal why => rw [issueCommand_illegal he hd] at h; cases h; exact .inr (.inl ⟨he, ⟨why, rfl⟩, rfl⟩)
  · rw [issueCommand_locked he] at h; cases h; exact .inl ⟨he, rfl⟩

/-- Everything a step can answer with: idle, or one host operation's own outcome. -/
theorem step_cases {s t : State} (h : step s = .next t) :
    (s.pending = [] ∧ t = s) ∨ ∃ op rest, s.pending = op :: rest ∧ hostStep op (s.setPending rest) = .next t := by
  cases hp : s.pending with
  | nil =>
    simp only [step, hostNext, hp] at h
    cases h
    exact .inl ⟨rfl, rfl⟩
  | cons op rest =>
    rw [step_of_pending hp] at h
    exact .inr ⟨op, rest, rfl, h⟩

end Sys2Proof.Machine
end

