-- ==== Sys2Proof/Laws/PerInstr.lean ====
section
/-! SUPPORT. Per-instruction laws about commands as syntax.

Family OpcodeField: bits [31:26] of a well-formed command's word are its opcode (spec 30_encoding.md R72): no operand
reaches into the opcode field. -/

namespace Sys2Proof.Laws.OpcodeField

/-- The law of the family. -/
def Statement (i : Instr) : Prop := i.WellFormed → bits (encode i) 31 26 = opcode i

/-- Operand bits below 2^26 leave the opcode field alone. -/
theorem of_operandBits_lt (i : Instr) (h : operandBits i < 2 ^ 26) : bits (encode i) 31 26 = opcode i := by
  have hop : opcode i < 64 := by cases i <;> simp [opcode]
  simp only [bits, encode, BitVec.toNat_ofNat]
  omega

theorem encodeF_lt {cw w sh off : Nat} (hc : cw ≤ 2) (h : fitsField w sh off = true) : encodeF cw w sh off < 2 ^ 26 := by
  simp only [fitsField, decide_eq_true_eq] at h
  simp only [encodeF]
  omega

theorem fitsOff16_lt {off : Nat} (h : fitsOff16 off = true) : off < 2 ^ 16 := by
  simpa [fitsOff16] using h

theorem encodeC_lt {p : Bool} {fld : Nat} (h : fitsOff16 fld = true) : encodeC p fld < 2 ^ 26 := by
  have := fitsOff16_lt h
  cases p <;> simp only [encodeC] <;> simp <;> omega

theorem nop : Statement .nop := fun _ => of_operandBits_lt _ (by decide)
theorem ofs (off : Nat) : Statement (.ofs off) := fun h => of_operandBits_lt _ (lt_trans (fitsOff16_lt h) (by decide))
theorem ld8 (off : Nat) : Statement (.ld8 off) := fun h => of_operandBits_lt _ (lt_trans (fitsOff16_lt h) (by decide))
theorem ld16 (off : Nat) : Statement (.ld16 off) := fun h => of_operandBits_lt _ (lt_trans (fitsOff16_lt h) (by decide))
theorem ld32 (off : Nat) : Statement (.ld32 off) := fun h => of_operandBits_lt _ (lt_trans (fitsOff16_lt h) (by decide))
theorem st8 (off : Nat) : Statement (.st8 off) := fun h => of_operandBits_lt _ (lt_trans (fitsOff16_lt h) (by decide))
theorem st16 (off : Nat) : Statement (.st16 off) := fun h => of_operandBits_lt _ (lt_trans (fitsOff16_lt h) (by decide))
theorem st32 (off : Nat) : Statement (.st32 off) := fun h => of_operandBits_lt _ (lt_trans (fitsOff16_lt h) (by decide))
theorem fld8 (w sh off : Nat) : Statement (.fld8 w sh off) := fun h => of_operandBits_lt _ (encodeF_lt (by decide) h)
theorem fld16 (w sh off : Nat) : Statement (.fld16 w sh off) := fun h => of_operandBits_lt _ (encodeF_lt (by decide) h)
theorem fld32 (w sh off : Nat) : Statement (.fld32 w sh off) := fun h => of_operandBits_lt _ (encodeF_lt (by decide) h)
theorem fst8 (w sh off : Nat) : Statement (.fst8 w sh off) := fun h => of_operandBits_lt _ (encodeF_lt (by decide) h)
theorem fst16 (w sh off : Nat) : Statement (.fst16 w sh off) := fun h => of_operandBits_lt _ (encodeF_lt (by decide) h)
theorem fst32 (w sh off : Nat) : Statement (.fst32 w sh off) := fun h => of_operandBits_lt _ (encodeF_lt (by decide) h)
theorem fmsk (w sh : Nat) : Statement (.fmsk w sh) := fun h => of_operandBits_lt _ (encodeF_lt (by decide) h)
theorem fext (w sh : Nat) : Statement (.fext w sh) := fun h => of_operandBits_lt _ (encodeF_lt (by decide) h)
theorem fins (w sh : Nat) : Statement (.fins w sh) := fun h => of_operandBits_lt _ (encodeF_lt (by decide) h)
theorem phclr : Statement .phclr := fun _ => of_operandBits_lt _ (by decide)
theorem phb8 : Statement .phb8 := fun _ => of_operandBits_lt _ (by decide)
theorem phb16 : Statement .phb16 := fun _ => of_operandBits_lt _ (by decide)
theorem phb32 : Statement .phb32 := fun _ => of_operandBits_lt _ (by decide)
theorem phcpy (n off : Nat) : Statement (.phcpy n off) := by
  intro h
  simp only [Instr.WellFormed, Instr.wellFormed, Bool.and_eq_true, decide_eq_true_eq] at h
  have := fitsOff16_lt h.2
  exact of_operandBits_lt _ (by simp only [operandBits]; omega)
theorem ph4 : Statement .ph4 := fun _ => of_operandBits_lt _ (by decide)
theorem ph6 : Statement .ph6 := fun _ => of_operandBits_lt _ (by decide)
theorem cksum (p : Bool) (fld : Nat) : Statement (.cksum p fld) := fun h => of_operandBits_lt _ (encodeC_lt h)
theorem ckver (p : Bool) (fld : Nat) : Statement (.ckver p fld) := fun h => of_operandBits_lt _ (encodeC_lt h)
theorem ckapp (p : Bool) (fld : Nat) : Statement (.ckapp p fld) := fun h => of_operandBits_lt _ (encodeC_lt h)
theorem ckclr (fld : Nat) : Statement (.ckclr fld) := fun h => of_operandBits_lt _ (lt_trans (fitsOff16_lt h) (by decide))

end Sys2Proof.Laws.OpcodeField
end

