-- ==== Sys2Proof/Tests/Slice0.lean ====
section
/-! SUPPORT. The model's own tests and the witnesses of its statements.

Expected values come from the spec: the words from the format tables of 30_encoding.md R73 to R80, written out bit by bit,
and the results from the examples of each command's rule and the vectors of 95_test_vectors.md, named in each comment. -/

namespace Sys2Proof.Tests

open Sys2Proof Sys2Proof.Machine

/-! ## Helpers -/

/-- A machine with `n` bytes of packet buffer and the given bytes in it, at reset. -/
def machine (n : Nat) (m : Memory) : State := State.powerUp (BitVec.ofNat 32 n) m

/-- The state after one command. -/
def after (i : Instr) (s : State) : State :=
  match exec i s with
  | .next t => t
  | _ => s

/-- The state after one step. -/
def afterStep (s : State) : State :=
  match step s with
  | .next t => t
  | _ => s

/-- The sample IPv4 header of vector V-CK-6 at MEM[0..19], its zero bytes unlisted. -/
def ipv4Header : Memory :=
  [(0, 0x45), (3, 0x73), (6, 0x40), (8, 0x40), (9, 0x11), (10, 0xb8), (11, 0x61), (12, 0xc0), (13, 0xa8), (15, 0x01),
   (16, 0xc0), (17, 0xa8), (19, 0xc7)]

/-- That header in 64 bytes of buffer, BASE = 0, CK_END = 20. -/
def ipv4 : State := { machine 64 ipv4Header with ckEnd := 20 }

/-- The IPv6 header of L1.7, its zero bytes unlisted: payload length 0x0014, next header 6, 2001:db8::1 to 2001:db8::2. -/
def ipv6Header : Memory :=
  [(0, 0x60), (5, 0x14), (6, 0x06), (7, 0x40), (8, 0x20), (9, 0x01), (10, 0x0d), (11, 0xb8), (23, 0x01), (24, 0x20),
   (25, 0x01), (26, 0x0d), (27, 0xb8), (39, 0x02)]

/-! ## WellFormed refuses what R85 says an assembler refuses -/

theorem test_wellFormed_refuses_width_zero : ¬ (Instr.fld8 0 0 0).WellFormed := by decide
theorem test_wellFormed_refuses_width_33 : ¬ (Instr.fst32 33 0 0).WellFormed := by decide
theorem test_wellFormed_refuses_shift_32 : ¬ (Instr.fmsk 1 32).WellFormed := by decide
theorem test_wellFormed_refuses_off14 : ¬ (Instr.fld16 1 0 16384).WellFormed := by decide
theorem test_wellFormed_refuses_off16 : ¬ (Instr.ld8 65536).WellFormed := by decide
theorem test_wellFormed_refuses_fld16 : ¬ (Instr.ckver true 65536).WellFormed := by decide
theorem test_wellFormed_refuses_count_64 : ¬ (Instr.phcpy 64 0).WellFormed := by decide
theorem test_wellFormed_refuses_phcpy_off16 : ¬ (Instr.phcpy 1 65536).WellFormed := by decide
theorem test_assemble_refuses : assemble (.phcpy 64 0) = none ∧ expand (.command (.phcpy 64 0)) = none := by decide
theorem test_wellFormed_accepts_limits :
    (Instr.fld32 32 31 16383).WellFormed ∧ (Instr.phcpy 63 65535).WellFormed := by decide

/-! ## Decoding: words written out field by field from R73 to R80 -/

/-- Format N: op, 26 zero bits. -/
theorem test_decode_N :
    decode 0b000000_00000000000000000000000000 = .command .nop ∧
    decode 0b010000_00000000000000000000000000 = .command .phclr ∧
    decode 0b010001_00000000000000000000000000 = .command .phb8 ∧
    decode 0b010010_00000000000000000000000000 = .command .phb16 ∧
    decode 0b010011_00000000000000000000000000 = .command .phb32 ∧
    decode 0b010101_00000000000000000000000000 = .command .ph4 ∧
    decode 0b010110_00000000000000000000000000 = .command .ph6 := by decide

/-- Format A: op, 10 zero bits, off16. -/
theorem test_decode_A :
    decode 0b000001_0000000000_0000000000000110 = .command (.ofs 6) ∧
    decode 0b000010_0000000000_0000000000001001 = .command (.ld8 9) ∧
    decode 0b000011_0000000000_0000000000000010 = .command (.ld16 2) ∧
    decode 0b000100_0000000000_1000000000000011 = .command (.ld32 32771) ∧
    decode 0b000101_0000000000_0000000000001000 = .command (.st8 8) ∧
    decode 0b000110_0000000000_0000000000000010 = .command (.st16 2) ∧
    decode 0b000111_0000000000_1111111111111111 = .command (.st32 65535) := by decide

/-- Format F: op, cw, W - 1, S, off14. -/
theorem test_decode_F_memory :
    decode 0b001000_00_00011_00100_00000000000000 = .command (.fld8 4 4 0) ∧
    decode 0b001000_01_00000_01110_00000000000110 = .command (.fld16 1 14 6) ∧
    decode 0b001000_10_10011_00000_00000000000000 = .command (.fld32 20 0 0) ∧
    decode 0b001001_00_00010_00101_00000000000001 = .command (.fst8 3 5 1) ∧
    decode 0b001001_01_01100_00000_00000000000110 = .command (.fst16 13 0 6) ∧
    decode 0b001001_10_11111_00000_10000000000000 = .command (.fst32 32 0 8192) := by decide

/-- Format F, registers only: cw = 0b10, off14 = 0. -/
theorem test_decode_F_registers :
    decode 0b001010_10_01100_00000_00000000000000 = .command (.fmsk 13 0) ∧
    decode 0b001011_10_00111_01000_00000000000000 = .command (.fext 8 8) ∧
    decode 0b001100_10_00011_11000_00000000000000 = .command (.fins 4 24) := by decide

/-- Format P: op, 4 zero bits, n, off16. Format C: op, P, 9 zero bits, fld16. -/
theorem test_decode_P_C :
    decode 0b010100_0000_010000_0000000000001000 = .command (.phcpy 16 8) ∧
    decode 0b100000_0_000000000_0000000000001000 = .command (.cksum false 8) ∧
    decode 0b100001_1_000000000_0000000000000110 = .command (.ckver true 6) ∧
    decode 0b100010_1_000000000_0000000000010000 = .command (.ckapp true 16) ∧
    decode 0b100011_0_000000000_0000000000001010 = .command (.ckclr 10) := by decide

/-- Vectors V-AC-2, V-AC-17, V-BF-16, V-BF-21, V-CK-20, V-CK-21, V-ER-1: illegal, each by name. -/
theorem test_decode_illegal :
    decode 0x00000001 = .illegal .reservedBit ∧ decode 0x04010000 = .illegal .reservedBit ∧
    decode 0x23000000 = .illegal .containerWidth ∧ decode 0x28600000 = .illegal .registerForm ∧
    decode 0x8E000000 = .illegal .reservedBit ∧ decode 0x80010000 = .illegal .reservedBit ∧
    decode 0xFC000000 = .illegal .reservedOpcode := by decide

theorem test_decodeTableWord : decodeTableWord 32 0x20190000 = some (.fld8 4 4 0) ∧
    decodeTableWord 32 0xFC000000 = none := by decide

/-! ## Instructions, at most two vectors each -/

/-- R100. -/
theorem test_nop : after .nop ipv4 = ipv4 := by decide
/-- V-AC-4: the sum wraps and raises nothing. -/
theorem test_ofs_wraps :
    (after (.ofs 2) { machine 64 [] with base := 0xFFFFFFFF }).rdata = 0x00000001 := by decide
/-- V-AC-7: no sign extension. -/
theorem test_ld8 : (after (.ld8 12) ipv4).rdata = 0x000000C0 := by decide
/-- V-AC-5: the address is exact, and ERRADDR saturates. -/
theorem test_ld8_bounds :
    let t := after (.ld8 2) { machine 64 [] with base := 0xFFFFFFFF }
    t.err = 5 ∧ t.erraddr = 0xFFFFFFFF ∧ t.errcmd = 0x08000002 := by decide
/-- V-AC-9. -/
theorem test_ld16 : (after (.ld16 4) (machine 64 [(4, 0xff), (5, 0xfe)])).rdata = 0x0000FFFE := by decide
/-- V-AC-11: an odd address. -/
theorem test_ld32 :
    (after (.ld32 3) (machine 64 [(3, 0x11), (4, 0x22), (5, 0x33), (6, 0x44)])).rdata = 0x11223344 := by decide
/-- P4 step 1: span [62, 66). -/
theorem test_ld32_straddles :
    let t := after (.ld32 2) { machine 64 [] with base := 60 }
    t.err = 5 ∧ t.errcmd = 0x10000002 ∧ t.erraddr = 64 ∧ t.rdata = 0 := by decide
/-- V-AC-12. -/
theorem test_st8 :
    (after (.st8 8) { machine 64 [(9, 0x55)] with wdata := 0x12345678 }).mem = [(8, 0x78), (9, 0x55)] := by decide
/-- V-AC-13. -/
theorem test_st16 : (after (.st16 2) { machine 64 [] with wdata := 0x12345678 }).mem = [(2, 0x56), (3, 0x78)] := by decide
/-- V-AC-15: not even the in-bounds byte is written. -/
theorem test_st16_straddles :
    let t := after (.st16 0) { machine 64 [(63, 0xAA)] with base := 63, wdata := 0xBBCC }
    t.err = 5 ∧ t.erraddr = 64 ∧ t.mem = [(63, 0xAA)] := by decide
/-- V-AC-14. -/
theorem test_st32 :
    (after (.st32 12) { machine 64 [] with wdata := 0x12345678 }).mem =
      [(12, 0x12), (13, 0x34), (14, 0x56), (15, 0x78)] := by decide

/-- V-BF-2. -/
theorem test_fld8 : (after (.fld8 4 4 0) (machine 64 [(0, 0x45)])).rdata = 4 := by decide
/-- V-ER-5: FIELD comes before BOUNDS. -/
theorem test_fld8_field_first : (after (.fld8 4 5 70) (machine 64 [])).err = 2 := by decide
/-- V-BF-7. -/
theorem test_fld16 : (after (.fld16 8 4 0) (machine 64 [(0, 0x6b), (1, 0x80)])).rdata = 0xB8 := by decide
/-- V-BF-8. -/
theorem test_fld32 :
    (after (.fld32 20 0 0) (machine 64 [(0, 0x6b), (1, 0x81), (2, 0x23), (3, 0x45)])).rdata = 0x00012345 := by decide
/-- V-BF-4: the data is masked, the sibling survives. -/
theorem test_fst8 : (after (.fst8 4 0 0) { machine 64 [(0, 0x45)] with wdata := 0x1F }).mem = [(0, 0x4F)] := by decide
/-- V-BF-11. -/
theorem test_fst8_top : (after (.fst8 3 5 1) (machine 64 [(1, 0xff)])).mem = [(1, 0x1f)] := by decide
/-- V-BF-6: bit 14 survives. -/
theorem test_fst16 :
    (after (.fst16 13 0 6) { machine 64 [(6, 0x40)] with wdata := 0x1ABC }).mem = [(6, 0x5a), (7, 0xbc)] := by decide
/-- V-BF-12. -/
theorem test_fst32 :
    (after (.fst32 32 0 0) { machine 64 [(0, 0x12), (1, 0x34), (2, 0x56), (3, 0x78)] with wdata := 0xCAFEBABE }).mem =
      [(0, 0xca), (1, 0xfe), (2, 0xba), (3, 0xbe)] := by decide
/-- V-BF-19, V-BF-20. -/
theorem test_fmsk :
    (after (.fmsk 1 31) (machine 64 [])).rdata = 0x80000000 ∧ (after (.fmsk 2 31) (machine 64 [])).err = 2 := by decide
/-- V-BF-22. -/
theorem test_fext : (after (.fext 8 8) { machine 64 [] with wdata := 0xDEADBEEF }).rdata = 0x000000BE := by decide
/-- V-BF-24. -/
theorem test_fins :
    (after (.fins 4 24) { machine 64 [] with rdata := 0x45000000, wdata := 6 }).rdata = 0x46000000 := by decide

/-- V-PH-1. -/
theorem test_phclr : (after .phclr (after .ph4 ipv4)).phbuf = Vector.replicate 40 0 := by decide
/-- V-PH-2. -/
theorem test_phb8 :
    (after .phb8 { machine 64 [] with wdata := 0xAB }).phByte 0 = 0xab ∧
    (after .phb8 { machine 64 [] with wdata := 0xAB }).phLen = 1 := by decide
/-- V-PH-6. -/
theorem test_phb8_full :
    (after .phb8 { machine 64 [] with phLen := 40 }).err = 4 ∧
    (after .phb8 { machine 64 [] with phLen := 40 }).phLen = 40 := by decide
/-- V-PH-3. -/
theorem test_phb16 :
    let t := after .phb16 { machine 64 [] with phLen := 10, wdata := 0xFF0108 }
    t.phByte 10 = 0x01 ∧ t.phByte 11 = 0x08 ∧ t.phLen = 12 := by decide
/-- V-PH-4, V-PH-5. -/
theorem test_phb32 :
    let t := after .phb32 { machine 64 [] with phLen := 36, wdata := 0xC0A80001 }
    t.phByte 36 = 0xc0 ∧ t.phByte 37 = 0xa8 ∧ t.phByte 38 = 0x00 ∧ t.phByte 39 = 0x01 ∧ t.phLen = 40 := by decide
/-- V-PH-8. -/
theorem test_phcpy :
    (after (.phcpy 4 16) (after (.phcpy 4 12) ipv4)).pseudoHeader = [0xc0, 0xa8, 0, 1, 0xc0, 0xa8, 0, 0xc7] := by decide
/-- V-PH-11, V-ER-7: n = 0 checks no bounds; PHOVF comes before BOUNDS. -/
theorem test_phcpy_edges :
    (after (.phcpy 0 0) { machine 64 [] with base := 70, phLen := 3 }).err = 0 ∧
    (after (.phcpy 1 0) { machine 64 [] with base := 70, phLen := 40 }).err = 4 := by decide
/-- V-PH-12. -/
theorem test_ph4 :
    (after .ph4 ipv4).pseudoHeader = [0xc0, 0xa8, 0, 1, 0xc0, 0xa8, 0, 0xc7, 0, 0x11, 0, 0x5f] := by decide
/-- V-PH-13: the length wraps. -/
theorem test_ph4_wraps :
    (after .ph4 (machine 64 [(0, 0x45)])).phByte 10 = 0xff ∧ (after .ph4 (machine 64 [(0, 0x45)])).phByte 11 = 0xec := by
  decide
/-- V-PH-15. -/
theorem test_ph6 :
    let t := after .ph6 (machine 64 ipv6Header)
    t.phLen = 36 ∧ t.phByte 32 = 0 ∧ t.phByte 33 = 6 ∧ t.phByte 34 = 0 ∧ t.phByte 35 = 0x14 ∧ t.phByte 15 = 1 ∧
      t.phByte 16 = 0x20 := by decide +kernel

/-- R170's example. -/
theorem test_cksum :
    let t := after (.cksum false 8) { machine 64 [(1, 0x01), (2, 0xf2), (3, 0x03), (4, 0xf4), (5, 0xf5), (6, 0xf6),
      (7, 0xf7)] with ckEnd := 8 }
    t.rdata = 0x0000220D ∧ t.ckSum = 0xDDF2 := by decide
/-- V-CK-7: an odd pseudo-header carries the byte toggle into the range. -/
theorem test_cksum_toggle :
    (after (.cksum true 2) { after .phb8 { machine 64 [(0, 0xcd), (1, 0xef)] with wdata := 0xab } with ckEnd := 2 }).rdata
      = 0x6531 := by decide
/-- V-CK-9. -/
theorem test_ckver :
    let t := after (.ckver false 10) ipv4
    t.vok = true ∧ t.rdata = 0x0000B861 ∧ t.ckSum = 0x479E ∧ t.mem = ipv4Header := by decide
/-- V-CK-14: a stored 0xFFFF is not 0x0000. -/
theorem test_ckver_no_zero_equivalence :
    let t := after (.ckver false 2) { machine 64 [(0, 0xff), (1, 0xff), (2, 0xff), (3, 0xff)] with ckEnd := 4 }
    t.vok = false ∧ t.rdata = 0 := by decide
/-- V-CK-11: the old field value is ignored. -/
theorem test_ckapp :
    let t := after (.ckapp false 10) { ipv4 with mem := Memory.writeBytes ipv4Header 10 [0x12, 0x34] }
    t.mem = ipv4Header ∧ t.rdata = 0xB861 ∧ t.ckSum = 0x479E := by decide
/-- V-ER-6: RANGE comes before BOUNDS of the field. -/
theorem test_ckapp_range :
    (after (.ckapp false 60) { machine 64 [] with base := 8, ckEnd := 4 }).err = 3 := by decide
/-- V-CK-15. -/
theorem test_ckclr :
    let t := after (.ckclr 10) ipv4
    t.byteAt 10 = 0 ∧ t.byteAt 11 = 0 ∧ t.rdata = 0 ∧ t.byteAt 9 = 0x11 ∧ t.byteAt 12 = 0xc0 := by decide
/-- V-CK-23: CKCLR reads no CK_END. -/
theorem test_ckclr_no_range : (after (.ckclr 0) { machine 64 [] with base := 8, ckEnd := 4 }).err = 0 := by decide

/-! ## The error latch and the host's port -/

/-- V-ER-1, from reset, the word placed by `withFetchWord`. -/
theorem test_illegal_word :
    let t := afterStep (State.reset.withFetchWord 32 0xFC000000)
    t.err = 1 ∧ t.errcmd = 0xFC000000 ∧ t.erraddr = 0 := by decide
/-- V-ER-2: discarded while locked. -/
theorem test_locked :
    let s := { ipv4 with err := 1, errcmd := 0xFC000000 }
    afterStep (s.withFetchWord 32 0x08000000) = s := by decide
/-- V-ER-3: ECLR unlocks and leaves VOK. -/
theorem test_eclr :
    let s := { ipv4 with err := 5, errcmd := 0x10000002, erraddr := 64, vok := true, pending := [.regWrite 32 0x2C 0] }
    afterStep s = { ipv4 with vok := true } := by decide
/-- P1 step 5: STATUS reads 0x00000100. -/
theorem test_read_status :
    (afterStep { ipv4 with vok := true, pending := [.regRead 32 0x04] }).reply = some 0x00000100 := by decide
/-- V-PH-4: PHBUF0 reads big-endian. -/
theorem test_read_phbuf :
    (afterStep { after (.phcpy 4 12) ipv4 with pending := [.regRead 32 0x40] }).reply = some 0xC0A80001 := by decide
/-- R220: the reset event. -/
theorem test_reset_event :
    afterStep { after .ph4 (after (.ckver false 10) ipv4) with pending := [.reset] } = machine 64 ipv4Header := by decide

/-! ## Witnesses: for each statement that has hypotheses, inputs that meet all of them together, clause by clause at the
edges of its range. `witness_<Name>` belongs to `Obligations.<Name>`. -/

/-- `s` with a host write of `v` to CMD waiting. -/
def withCommand (s : State) (v : Word) : State := { s with pending := [.regWrite 32 0 v] }

theorem exec_after (i : Instr) (s : State) : exec i s = .next (after i s) := by
  obtain ⟨cs, f, h⟩ := exec_eq_runCommand i s
  obtain ⟨t, ht⟩ := runCommand_next (encode i) cs f s
  rw [after, h, ht]

theorem witness_DecodeOfEncode : ∀ i ∈ [Instr.nop, .ofs 65535, .fld8 1 0 0, .fst32 32 31 16383, .fmsk 32 31, .phcpy 63 65535,
    .cksum true 65535, .ckclr 0], i.WellFormed := by decide
theorem witness_EncodeOfDecode : decode 0x8A00FFFF = .command (.ckapp true 65535) := by decide
theorem witness_LegalWordsMatchOneTableRow :
    decode 0x25600006 = .command (.fst16 13 0 6) ∧ (0x25600006 : Word) &&& (tableRow (.fst16 13 0 6)).2 = 0x25000000 ∧
    ∃ why, decode 0x23000000 = .illegal why := ⟨by decide, by decide, _, rfl⟩
theorem witness_ReservedWordsRaiseIllegal : (∀ v ∈ [0x34000000, 0x3C000000, 0x5C000000, 0x7C000000, 0x90000000, 0xFC000000,
    0x00000001, 0x5A000000, 0x06000000, 0x1C010000, 0x52000000, 0x50400000, 0x81000000, 0x8E000000, 0x23000000, 0x33000000,
    0x28000000, 0x32000001], IllegalWord v) ∧
    ((withCommand ipv4 0xFC000000).pending = .regWrite 32 0 0xFC000000 :: [] ∧ (withCommand ipv4 0xFC000000).err = 0) := by
  refine ⟨?_, by decide⟩
  simp only [List.forall_mem_cons, IllegalWord]
  refine ⟨?_, ?_, ?_, ?_, ?_, ?_, ?_, ?_, ?_, ?_, ?_, ?_, ?_, ?_, ?_, ?_, ?_, ?_, List.forall_mem_nil _⟩ <;> decide
theorem witness_legal_word : ¬ IllegalWord 0x8A00FFFF ∧ ¬ IllegalWord 0x00000000 := by unfold IllegalWord; decide

/-- One legal and one reserved word of each format, for the statements that say what the words of an opcode decode to. -/
theorem witness_formats :
    (bits 0x00000000 31 26 = 0 ∧ bits 0x00000000 25 0 = 0) ∧ (bits 0x00000001 31 26 = 0 ∧ bits 0x00000001 25 0 ≠ 0) ∧
    (bits 0x0400FFFF 31 26 = 1 ∧ bits 0x0400FFFF 25 16 = 0) ∧ (bits 0x06000000 31 26 = 1 ∧ bits 0x06000000 25 16 ≠ 0) ∧
    (bits 0x20FFFFFF 31 26 = 8 ∧ bits 0x20FFFFFF 25 24 = 0b00) ∧ (bits 0x21FFFFFF 31 26 = 8 ∧ bits 0x21FFFFFF 25 24 = 0b01) ∧
    (bits 0x22FFFFFF 31 26 = 8 ∧ bits 0x22FFFFFF 25 24 = 0b10) ∧ (bits 0x23000000 31 26 = 8 ∧ bits 0x23000000 25 24 = 0b11) ∧
    (bits 0x2AFFC000 31 26 = 10 ∧ bits 0x2AFFC000 25 24 = 0b10 ∧ bits 0x2AFFC000 13 0 = 0) ∧
    (bits 0x2A000001 31 26 = 10 ∧ bits 0x2A000001 13 0 ≠ 0) ∧
    (bits 0x503FFFFF 31 26 = 0x14 ∧ bits 0x503FFFFF 25 22 = 0) ∧ (bits 0x50400000 31 26 = 0x14 ∧ bits 0x50400000 25 22 ≠ 0) ∧
    (bits 0x8200FFFF 31 26 = 0x20 ∧ bits 0x8200FFFF 24 16 = 0) ∧ (bits 0x81000000 31 26 = 0x20 ∧ bits 0x81000000 24 16 ≠ 0) := by
  decide

theorem witness_CmdWriteRunsDecodedCommand : (withCommand ipv4 0x54000000).pending = .regWrite 32 0 0x54000000 :: [] ∧
    (withCommand ipv4 0x54000000).err = 0 ∧ decode 0x54000000 = .command .ph4 := by decide
theorem witness_LockedEngineDiscardsCommands :
    ({ machine 64 [] with err := 1 } : State).err ≠ 0 ∧ ({ machine 64 [] with err := 15 } : State).err ≠ 0 ∧
    63 < ({ machine 64 [] with err := 1 } : State).bufLen.toNat := by decide
theorem witness_ErrorLatchRecordsWord :
    (withCommand (machine 64 []) 0x50290000).pending = .regWrite 32 0 0x50290000 :: [] ∧
    (withCommand (machine 64 []) 0x50290000).err = 0 ∧
    step (withCommand (machine 64 []) 0x50290000) = .next (afterStep (withCommand (machine 64 []) 0x50290000)) ∧
    (afterStep (withCommand (machine 64 []) 0x50290000)).err ≠ 0 ∧
    (afterStep (withCommand (machine 64 []) 0x50290000)).err ≠ 5 := ⟨rfl, rfl, rfl, by decide, by decide⟩
theorem witness_OddRegisterAccessRefused : ((16 : Nat) ≠ 32 ∨ 0 % 4 ≠ 0) ∧ ((32 : Nat) ≠ 32 ∨ 2 % 4 ≠ 0) := by decide
theorem witness_HostMemoryPort : 63 < (machine 64 []).bufLen.toNat := by decide
theorem witness_PortEdgesAndIdle :
    (machine 64 []).pending = [] ∧ (machine 64 []).bufLen.toNat ≤ 64 ∧ 128 ≤ 128 ∧ 128 % 4 = 0 := by decide
theorem witness_ResetStateMeetsInvariant : Memory.wf ipv4Header = true ∧ ∀ c ∈ ipv4Header, c.1 < (20 : Word).toNat := by decide

/-- The invariant of a reset machine with a host operation waiting. -/
theorem machine_inv (n : Nat) (m : Memory) (ops : List HostOp) (h : Memory.wf m = true)
    (hm : ∀ c ∈ m, c.1 < (BitVec.ofNat 32 n).toNat) : ({ machine n m with pending := ops } : State).Inv where
  memCanonical := h
  memInBuffer := hm
  phRoom := Nat.zero_le 40
  phClean i _ := zeroedPhbuf_getD i
  errCode := Nat.zero_le 5
  latchClear _ := ⟨rfl, rfl⟩
  addrOnlyForBounds _ := rfl
  addrOutside h := absurd h (by simp [machine, State.powerUp])
  latchedWord h := absurd rfl h

theorem witness_StepKeepsInvariant :
    (withCommand (machine 64 ipv4Header) 0x54000000).Inv ∧
    step (withCommand (machine 64 ipv4Header) 0x54000000) =
      .next (afterStep (withCommand (machine 64 ipv4Header) 0x54000000)) :=
  ⟨machine_inv 64 ipv4Header _ (by decide) (by decide), rfl⟩
theorem witness_StepKeepsBufferLength : step (withCommand ipv4 0x54000000) = .next (afterStep (withCommand ipv4 0x54000000)) :=
  rfl
theorem witness_ErrorsArePrecise : ipv4.err = 0 ∧ exec (.ld32 62) ipv4 = .next (after (.ld32 62) ipv4) ∧
    (after (.ld32 62) ipv4).err ≠ 0 := ⟨rfl, exec_after _ _, by decide⟩

theorem witness_OneErrorInCheckOrder :
    (withCommand ipv4 0x20194000).pending = .regWrite 32 0 0x20194000 :: [] ∧ decode 0x20194000 = .command (.fld8 4 5 0) ∧
    FieldFails (.fld8 4 5 0) ∧
    (¬ FieldFails (.cksum false 60) ∧ RangeFails (.cksum false 60) { machine 64 [] with base := 8, ckEnd := 4 }) ∧
    (¬ FieldFails .phb8 ∧ ¬ RangeFails .phb8 { machine 64 [] with phLen := 40 } ∧
      RoomFails .phb8 { machine 64 [] with phLen := 40 }) ∧
    (NoEarlierError (.ld32 61) ipv4 ∧ BoundsFailsAt (.ld32 61) ipv4 61 4) ∧
    (NoEarlierError (.ld32 60) ipv4 ∧ ∀ sp ∈ checkedSpans (.ld32 60) ipv4, InBounds ipv4 sp.1 sp.2) := by
  refine ⟨rfl, by decide, ⟨4, 5, 8, rfl, by decide⟩, ⟨?_, rfl, by decide⟩, ⟨?_, ?_, 1, rfl, by decide⟩,
    ⟨⟨?_, ?_, ?_⟩, [], [], rfl, by simp, by unfold InBounds; decide⟩, ⟨⟨?_, ?_, ?_⟩, ?_⟩⟩
  all_goals first
    | (rintro ⟨_, _, _, h, _⟩; cases h)
    | (rintro ⟨h, _⟩; cases h; done)
    | (rintro ⟨_, h, _⟩; cases h)
    | skip
  intro sp hsp
  simp only [checkedSpans, List.mem_singleton] at hsp
  subst hsp
  unfold InBounds; decide

theorem witness_BoundsRecordsLowestAddress :
    ({ machine 64 [] with base := 70, ckEnd := 70 } : State).err = 0 ∧
    NoEarlierError (.cksum false 0) { machine 64 [] with base := 70, ckEnd := 70 } ∧
    BoundsFailsAt (.cksum false 0) { machine 64 [] with base := 70, ckEnd := 70 } 70 2 := by
  refine ⟨rfl, ⟨?_, ?_, ?_⟩, [(70, 0)], [], rfl, ?_, by unfold InBounds; decide⟩
  · rintro ⟨_, _, _, h, _⟩; cases h
  · rintro ⟨_, h⟩; revert h; decide
  · rintro ⟨_, h, _⟩; cases h
  · intro sp hsp
    rw [List.mem_singleton.1 hsp]
    exact .inl rfl

theorem witness_CommandsKeepHostRegisters : exec (.st8 63) ipv4 = .next (after (.st8 63) ipv4) := exec_after _ _
theorem witness_OnlyCkverWritesVok :
    (exec (.ckapp false 10) ipv4 = .next (after (.ckapp false 10) ipv4) ∧ ∀ p fld, Instr.ckapp false 10 ≠ .ckver p fld) ∧
    (exec (.ckver false 63) ipv4 = .next (after (.ckver false 63) ipv4) ∧ (after (.ckver false 63) ipv4).err ≠ 0) :=
  ⟨⟨exec_after _ _, by intro _ _ h; cases h⟩, exec_after _ _, by decide⟩
theorem witness_ResultsWrittenOnlyByTheirCommands : exec (.ckclr 10) ipv4 = .next (after (.ckclr 10) ipv4) ∧
    writesRdata (.ckclr 10) = false ∧ sumsRange (.ckclr 10) = false ∧ writesPseudoHeader (.ckclr 10) = false :=
  ⟨exec_after _ _, rfl, rfl, rfl⟩
theorem witness_CommandsWriteOnlyTheirBytes : exec (.st16 62) ipv4 = .next (after (.st16 62) ipv4) ∧
    (¬ WritesByte (.st16 62) ipv4 61 ∨ ipv4.bufLen.toNat ≤ 61) ∧ (¬ WritesByte (.st16 62) ipv4 64 ∨ ipv4.bufLen.toNat ≤ 64) := by
  refine ⟨exec_after _ _, .inl ?_, .inl ?_⟩ <;> unfold WritesByte <;> decide
theorem witness_CommandsReadOnlyTheirBytes :
    (∀ a, ReadsByte (.cksum false 10) ipv4 a →
      Memory.readByte (Memory.writeBytes ipv4Header 10 [0x12, 0x34]) a = ipv4.byteAt a) ∧
    exec (.cksum false 10) ipv4 = .next (after (.cksum false 10) ipv4) ∧ (after (.cksum false 10) ipv4).err = 0 := by
  refine ⟨fun a h => ?_, exec_after _ _, by decide⟩
  have h10 : a ≠ 10 := h.2.2.1
  have h11 : a ≠ 11 := h.2.2.2
  rw [Memory.readByte_writeBytes, if_neg (by simp only [List.length]; omega)]
  rfl

theorem witness_OfsComposesOffset : ({ machine 64 [] with base := 0xFFFFFFFF } : State).err = 0 ∧
    2 ^ 32 ≤ ({ machine 64 [] with base := 0xFFFFFFFF } : State).base.toNat + 1 := by decide
theorem witness_LoadsReadBigEndian : ipv4.err = 0 ∧ (60 : Nat) = ipv4.base.toNat + 60 ∧ 63 + 1 ≤ ipv4.bufLen.toNat ∧
    62 + 2 ≤ ipv4.bufLen.toNat ∧ 60 + 4 ≤ ipv4.bufLen.toNat ∧ ipv4.bufLen.toNat < 64 + 1 ∧ ipv4.bufLen.toNat < 63 + 2 ∧
    ipv4.bufLen.toNat < 61 + 4 := by decide
theorem witness_StoresWriteBigEndian : ipv4.err = 0 ∧ ipv4.absAddr 60 = 60 ∧ 63 + 1 ≤ ipv4.bufLen.toNat ∧
    62 + 2 ≤ ipv4.bufLen.toNat ∧ 60 + 4 ≤ ipv4.bufLen.toNat ∧ ipv4.bufLen.toNat < 64 + 1 ∧ ipv4.bufLen.toNat < 63 + 2 ∧
    ipv4.bufLen.toNat < 61 + 4 := by decide
theorem witness_LoadAfterStoreReturnsData : ipv4.err = 0 ∧ (after (.st8 63) ipv4).err = 0 ∧
    (after (.st16 62) ipv4).err = 0 ∧ (after (.st32 60) ipv4).err = 0 ∧ exec (.st8 63) ipv4 = .next (after (.st8 63) ipv4) ∧
    exec (.st16 62) ipv4 = .next (after (.st16 62) ipv4) ∧ exec (.st32 60) ipv4 = .next (after (.st32 60) ipv4) :=
  ⟨rfl, by decide, by decide, by decide, exec_after _ _, exec_after _ _, exec_after _ _⟩
theorem witness_FldReadsField : ipv4.err = 0 ∧ ipv4.absAddr 62 = 62 ∧ 13 + 3 ≤ 8 * containerBytes .c16 ∧
    62 + containerBytes .c16 ≤ ipv4.bufLen.toNat ∧ 8 * containerBytes .c16 < 14 + 3 ∧
    ipv4.bufLen.toNat < 63 + containerBytes .c16 := by decide
theorem witness_FstWritesOnlyItsField : ipv4.err = 0 ∧ ipv4.absAddr 60 = 60 ∧ 32 + 0 ≤ 8 * containerBytes .c32 ∧
    60 + containerBytes .c32 ≤ ipv4.bufLen.toNat ∧ 8 * containerBytes .c8 < 8 + 1 ∧
    ipv4.bufLen.toNat < 64 + containerBytes .c8 := by decide
theorem witness_RegisterFieldCommands : ipv4.err = 0 ∧ 1 + 31 ≤ 32 ∧ 32 < 2 + 31 := by decide
theorem witness_FieldRoundTrip : ipv4.err = 0 ∧
    exec (fstCommand .c16 13 0 6) ipv4 = .next (after (fstCommand .c16 13 0 6) ipv4) ∧
    (after (fstCommand .c16 13 0 6) ipv4).err = 0 ∧ 3 + 13 ≤ 8 * containerBytes .c16 ∧ (0 + 13 ≤ 13 ∨ 13 + 3 ≤ 0) :=
  ⟨rfl, exec_after _ _, by decide, by decide, by decide⟩
theorem witness_BitSetAndClearChangeOneBit : ipv4.err = 0 ∧ ipv4.absAddr 60 = 60 ∧ 31 < 8 * containerBytes .c32 ∧
    60 < 16384 ∧ 60 + containerBytes .c32 ≤ ipv4.bufLen.toNat := by decide
theorem witness_PseudoInstructionsExpand : (31 < 32 ∧ 16383 < 16384) ∧ ipv4.err = 0 := by decide

theorem witness_PhclrEmptiesPseudoHeader : (after .ph4 ipv4).err = 0 ∧ (after .ph4 ipv4).phLen = 12 := by decide
theorem witness_AppendsPutWdataInPhbuf : ({ ipv4 with phLen := 36 } : State).err = 0 ∧ 36 + 4 ≤ 40 ∧ 38 + 2 ≤ 40 ∧
    39 + 1 ≤ 40 ∧ 40 < 37 + 4 ∧ 40 < 39 + 2 ∧ 40 < 40 + 1 := by decide
theorem witness_PhcpyCopiesBytes : ({ ipv4 with phLen := 36 } : State).err = 0 ∧ ipv4.absAddr 60 = 60 ∧ 36 + 4 ≤ 40 ∧
    ((4 : Nat) = 0 ∨ 60 + 4 ≤ ipv4.bufLen.toNat) ∧ 40 < 36 + 5 ∧ (4 : Nat) ≠ 0 ∧ ipv4.bufLen.toNat < 61 + 4 := by decide
theorem witness_Ph4BuildsIpv4PseudoHeader : ({ ipv4 with base := 44 } : State).err = 0 ∧
    ({ ipv4 with base := 44 } : State).base.toNat = 44 ∧ 44 + 20 ≤ ipv4.bufLen.toNat ∧ ipv4.bufLen.toNat < 45 + 20 := by
  decide
theorem witness_Ph6BuildsIpv6PseudoHeader : ({ ipv4 with base := 24 } : State).err = 0 ∧
    ({ ipv4 with base := 24 } : State).base.toNat = 24 ∧ 24 + 40 ≤ ipv4.bufLen.toNat ∧ ipv4.bufLen.toNat < 25 + 40 := by
  decide

/-- A machine whose pseudo-header is `bs`. -/
def withPseudoHeader (bs : List Byte) : State := (machine 64 []).phReplace bs

/-- A machine with a 36-byte IPv6 pseudo-header. -/
def ph36 : State := withPseudoHeader (List.replicate 16 7 ++ List.replicate 16 9 ++ [0, 6, 0, 20])

theorem witness_PseudoHeaderLayoutsAgree :
    (ph36.err = 0 ∧ exec (.ckapp true 62) ph36 = .next (after (.ckapp true 62) ph36) ∧ (after (.ckapp true 62) ph36).err = 0) ∧
    (List.replicate 16 (7 : Byte)).length = 16 ∧
    ph36.pseudoHeader =
      List.replicate 16 7 ++ List.replicate 16 9 ++ [0, 6, 0, 20] ∧
    (withPseudoHeader (List.replicate 16 7 ++ List.replicate 16 9 ++ [0, 0, 0, 6, 0, 20])).pseudoHeader =
      List.replicate 16 7 ++ List.replicate 16 9 ++ [0, 0, 0, 6, 0, 20] ∧
    (withPseudoHeader (List.replicate 16 7 ++ List.replicate 16 9 ++ [0, 0, 0, 20, 0, 0, 0, 6])).pseudoHeader =
      List.replicate 16 7 ++ List.replicate 16 9 ++ [0, 0, 0, 20, 0, 0, 0, 6] :=
  ⟨⟨rfl, exec_after _ _, by decide +kernel⟩, by decide, by decide +kernel, by decide +kernel, by decide +kernel⟩
theorem witness_FoldIsOnesComplementSum : 0xFFFF ≤ 0xFFFF ∧ 0xFFFF < 0x10000 ∧ 0 < 0x1FFFE ∧ 0x1FFFE % 0xFFFF = 0 ∧
    0xFFFFFFFF < 2 ^ 32 := by decide
theorem witness_EndAroundCarryEquivalent : [0xEF00, 0xABCD].Perm (streamWords [0xab, 0xcd, 0xef]) ∧
    [[0xEF00], [0xABCD]].flatten = [0xEF00, 0xABCD] ∧ [[], [0xEF00, 0xABCD]].flatten = [0xEF00, 0xABCD] := by decide

/-- The operands of V-CK-9 pass every check, with the buffer ending at the range's end, and at the field's end. -/
theorem passes_example : ipv4.err = 0 ∧ ChecksumPasses { ipv4 with bufLen := 20 } 10 ∧
    ChecksumPasses { ipv4 with bufLen := 20 } 18 ∧ ChecksumPasses { machine 64 [] with base := 62, ckEnd := 62 } 0 := by
  unfold ChecksumPasses; decide
theorem witness_CksumComputes : ipv4.err = 0 ∧ ChecksumPasses { ipv4 with bufLen := 20 } 10 ∧
    ({ machine 64 [] with base := 8, ckEnd := 7 } : State).ckEnd.toNat < (8 : Word).toNat ∧
    ((0 : Word).toNat < (65 : Word).toNat ∧ (machine 64 []).bufLen.toNat < (65 : Word).toNat) ∧
    (machine 64 []).bufLen.toNat < (machine 64 []).absAddr 63 + 2 := ⟨rfl, passes_example.2.1, by decide, by decide, by decide⟩
theorem witness_CkverComparesStoredField : ipv4.err = 0 ∧ ChecksumPasses { ipv4 with bufLen := 20 } 18 :=
  ⟨rfl, passes_example.2.2.1⟩
theorem witness_CkappStoresChecksum : ipv4.err = 0 ∧ ({ ipv4 with bufLen := 20 } : State).absAddr 10 = 10 ∧
    ChecksumPasses { ipv4 with bufLen := 20 } 10 := ⟨rfl, rfl, passes_example.2.1⟩
theorem witness_CkclrZeroesField : ipv4.err = 0 ∧ ipv4.absAddr 62 = 62 ∧ 62 + 2 ≤ ipv4.bufLen.toNat ∧
    ipv4.bufLen.toNat < 63 + 2 ∧ exec (.ckclr 62) ipv4 = .next (after (.ckclr 62) ipv4) ∧
    exec (.ckapp false 62) ipv4 = .next (after (.ckapp false 62) ipv4) ∧ (after (.ckapp false 62) ipv4).err = 0 :=
  ⟨rfl, rfl, by decide, by decide, exec_after _ _, exec_after _ _, by decide⟩

/-- A machine whose range is the two bytes ff ff at 0. -/
def allOnes : State := { machine 64 [(0, 0xFF), (1, 0xFF)] with ckEnd := 2 }

theorem witness_ChecksumCornerValues :
    ((machine 64 []).err = 0 ∧ exec (.cksum true 0) (machine 64 []) = .next (after (.cksum true 0) (machine 64 [])) ∧
      (after (.cksum true 0) (machine 64 [])).err = 0 ∧ (machine 64 []).ckEnd = (machine 64 []).base ∧
      (machine 64 []).phLen = 0) ∧
    (∀ b ∈ specStream { machine 64 [] with ckEnd := 4 } false 10, b = 0) ∧
    (specStream allOnes false 10 = [0xFF, 0xFF] ∧ exec (.ckver false 10) allOnes = .next (after (.ckver false 10) allOnes) ∧
      (after (.ckver false 10) allOnes).err = 0) :=
  ⟨⟨rfl, exec_after _ _, by decide, rfl, rfl⟩, by decide, by decide, exec_after _ _, by decide⟩

/-- The hypotheses of the statements that start from a successful CKAPP. -/
theorem apply_example : ipv4.err = 0 ∧ exec (.ckapp true 10) (after .ph4 ipv4) =
    .next (after (.ckapp true 10) (after .ph4 ipv4)) ∧ (after (.ckapp true 10) (after .ph4 ipv4)).err = 0 :=
  ⟨rfl, exec_after _ _, by decide⟩
theorem witness_ApplyThenVerifySucceeds : (after .ph4 ipv4).err = 0 ∧ exec (.ckapp true 10) (after .ph4 ipv4) =
    .next (after (.ckapp true 10) (after .ph4 ipv4)) ∧ (after (.ckapp true 10) (after .ph4 ipv4)).err = 0 ∧
    ({ after (.ckapp true 10) (after .ph4 ipv4) with wdata := 5 } : State).pseudoHeader =
      (after (.ckapp true 10) (after .ph4 ipv4)).pseudoHeader := ⟨by decide, apply_example.2.1, apply_example.2.2, rfl⟩
theorem witness_ApplyIsIdempotent : ipv4.err = 0 ∧ exec (.ckapp false 10) ipv4 = .next (after (.ckapp false 10) ipv4) ∧
    (after (.ckapp false 10) ipv4).err = 0 := ⟨rfl, exec_after _ _, by decide⟩
theorem witness_VerifyDetectsSingleBitFlip : (after .ph4 ipv4).err = 0 ∧ exec (.ckapp true 10) (after .ph4 ipv4) =
    .next (after (.ckapp true 10) (after .ph4 ipv4)) ∧ (after (.ckapp true 10) (after .ph4 ipv4)).err = 0 ∧ 7 < 8 ∧
    (ipv4.base.toNat ≤ 19 ∧ 19 < ipv4.ckEnd.toNat ∧ 19 ≠ ipv4.absAddr 10 ∧ 19 ≠ ipv4.absAddr 10 + 1) ∧
    11 < (after (.ckapp true 10) (after .ph4 ipv4)).phLen ∧ 11 < 40 :=
  ⟨by decide, apply_example.2.1, apply_example.2.2, by decide, by decide, by decide, by decide⟩
theorem witness_VerifyDependsOnStreamAndField : ipv4.err = 0 ∧ exec (.ckver false 10) ipv4 = .next (after (.ckver false 10) ipv4) ∧
    (after (.ckver false 10) ipv4).err = 0 ∧ IsOnesSum (specStream ipv4 false 10) 0x479E := by
  refine ⟨rfl, exec_after _ _, by decide, ?_⟩
  unfold IsOnesSum; decide
theorem witness_StoredFieldTakesNoPart :
    (∀ a, a ≠ ipv4.absAddr 10 → a ≠ ipv4.absAddr 10 + 1 →
      Memory.readByte (Memory.writeBytes ipv4Header 10 [0x12, 0x34]) a = ipv4.byteAt a) ∧
    exec (.cksum false 10) ipv4 = .next (after (.cksum false 10) ipv4) := by
  refine ⟨fun a h10 h11 => ?_, exec_after _ _⟩
  have h10 : a ≠ 10 := h10
  have h11 : a ≠ 11 := h11
  rw [Memory.readByte_writeBytes, if_neg (by simp only [List.length]; omega)]
  rfl
theorem witness_ClearThenVerify : ipv4.err = 0 ∧ exec (.ckclr 10) ipv4 = .next (after (.ckclr 10) ipv4) ∧
    (after (.ckclr 10) ipv4).err = 0 ∧
    exec (.ckver false 10) (after (.ckclr 10) ipv4) = .next (after (.ckver false 10) (after (.ckclr 10) ipv4)) ∧
    (after (.ckver false 10) (after (.ckclr 10) ipv4)).err = 0 :=
  ⟨rfl, exec_after _ _, by decide, exec_after _ _, by decide⟩

end Sys2Proof.Tests
end

section
/-! SUPPORT. A word that decodes is the encoding of its command: one lemma per format, then the decoder. -/

namespace Sys2Proof

variable {v : Word} {i : Instr}

/-- A command's word is fixed by its opcode field and its operand bits. -/
theorem encode_eq_of_fields (hop : opcode i = bits v 31 26) (hb : operandBits i = bits v 25 0) : encode i = v := by
  apply BitVec.eq_of_toNat_eq
  have hv := v.isLt
  simp only [encode, BitVec.toNat_ofNat, hop, hb, bits]
  omega

/-- The fields of format F are all of bits [25:0]. -/
theorem encodeF_bits (v : Word) :
    encodeF (bits v 25 24) (bits v 23 19 + 1) (bits v 18 14) (bits v 13 0) = bits v 25 0 := by
  simp only [encodeF, bits]
  omega

theorem encode_of_decodeN {j : Instr} (h : decodeN v j = .command i)
    (hj : opcode j = bits v 31 26 ∧ operandBits j = 0) : encode i = v := by
  unfold decodeN at h
  split at h
  · cases h; exact encode_eq_of_fields hj.1 (hj.2.trans (Eq.symm ‹_›))
  · cases h

theorem encode_of_decodeA {mk : Nat → Instr} (h : decodeA v mk = .command i)
    (hmk : ∀ off, opcode (mk off) = bits v 31 26 ∧ operandBits (mk off) = off) : encode i = v := by
  unfold decodeA at h
  split at h
  · rename_i hres
    cases h
    refine encode_eq_of_fields (hmk _).1 ((hmk _).2.trans ?_)
    simp only [bits] at hres ⊢; omega
  · cases h

theorem encode_of_decodeF {mk8 mk16 mk32 : Nat → Nat → Nat → Instr} (h : decodeF v mk8 mk16 mk32 = .command i)
    (h8 : ∀ w sh off, opcode (mk8 w sh off) = bits v 31 26 ∧ operandBits (mk8 w sh off) = encodeF 0 w sh off)
    (h16 : ∀ w sh off, opcode (mk16 w sh off) = bits v 31 26 ∧ operandBits (mk16 w sh off) = encodeF 1 w sh off)
    (h32 : ∀ w sh off, opcode (mk32 w sh off) = bits v 31 26 ∧ operandBits (mk32 w sh off) = encodeF 2 w sh off) :
    encode i = v := by
  unfold decodeF at h
  split at h
  · rename_i hcw; cases h; exact encode_eq_of_fields (h8 ..).1 (by rw [(h8 ..).2, ← encodeF_bits, hcw])
  · rename_i hcw; cases h; exact encode_eq_of_fields (h16 ..).1 (by rw [(h16 ..).2, ← encodeF_bits, hcw])
  · rename_i hcw; cases h; exact encode_eq_of_fields (h32 ..).1 (by rw [(h32 ..).2, ← encodeF_bits, hcw])
  · cases h

theorem encode_of_decodeFReg {mk : Nat → Nat → Instr} (h : decodeFReg v mk = .command i)
    (hmk : ∀ w sh, opcode (mk w sh) = bits v 31 26 ∧ operandBits (mk w sh) = encodeF 2 w sh 0) : encode i = v := by
  unfold decodeFReg at h
  split at h
  · cases h
  · split at h
    · rename_i hreg
      cases h
      exact encode_eq_of_fields (hmk ..).1 (by rw [(hmk ..).2, ← encodeF_bits, hreg.1, hreg.2])
    · cases h

theorem encode_of_decodeP {mk : Nat → Nat → Instr} (h : decodeP v mk = .command i)
    (hmk : ∀ n off, opcode (mk n off) = bits v 31 26 ∧ operandBits (mk n off) = n * 2 ^ 16 + off) :
    encode i = v := by
  unfold decodeP at h
  split at h
  · rename_i hres
    cases h
    refine encode_eq_of_fields (hmk ..).1 ((hmk ..).2.trans ?_)
    simp only [bits] at hres ⊢; omega
  · cases h

theorem encode_of_decodeC {mk : Bool → Nat → Instr} (h : decodeC v mk = .command i)
    (hmk : ∀ p fld, opcode (mk p fld) = bits v 31 26 ∧ operandBits (mk p fld) = encodeC p fld) : encode i = v := by
  unfold decodeC at h
  split at h
  · rename_i hres
    cases h
    refine encode_eq_of_fields (hmk ..).1 ((hmk ..).2.trans ?_)
    by_cases hp : bits v 25 25 = 1
    · simp only [encodeC, hp, decide_true, if_true]
      simp only [bits] at hres hp ⊢; omega
    · simp only [encodeC, hp, decide_false, Bool.false_eq_true, if_false]
      simp only [bits] at hres hp ⊢; omega
  · cases h

theorem encode_of_decodeCNoP {mk : Nat → Instr} (h : decodeCNoP v mk = .command i)
    (hmk : ∀ fld, opcode (mk fld) = bits v 31 26 ∧ operandBits (mk fld) = fld) : encode i = v :=
  encode_of_decodeA h hmk

/-- A word that decodes is the encoding of the command it decodes to: the decoder drops no bit (R83). -/
theorem encode_of_decode (h : decode v = .command i) : encode i = v := by
  unfold decode at h
  split at h
  next hop => exact encode_of_decodeN h ⟨hop.symm, rfl⟩
  next hop => exact encode_of_decodeA h fun _ => ⟨hop.symm, rfl⟩
  next hop => exact encode_of_decodeA h fun _ => ⟨hop.symm, rfl⟩
  next hop => exact encode_of_decodeA h fun _ => ⟨hop.symm, rfl⟩
  next hop => exact encode_of_decodeA h fun _ => ⟨hop.symm, rfl⟩
  next hop => exact encode_of_decodeA h fun _ => ⟨hop.symm, rfl⟩
  next hop => exact encode_of_decodeA h fun _ => ⟨hop.symm, rfl⟩
  next hop => exact encode_of_decodeA h fun _ => ⟨hop.symm, rfl⟩
  next hop =>
    exact encode_of_decodeF h (fun _ _ _ => ⟨hop.symm, rfl⟩) (fun _ _ _ => ⟨hop.symm, rfl⟩)
      fun _ _ _ => ⟨hop.symm, rfl⟩
  next hop =>
    exact encode_of_decodeF h (fun _ _ _ => ⟨hop.symm, rfl⟩) (fun _ _ _ => ⟨hop.symm, rfl⟩)
      fun _ _ _ => ⟨hop.symm, rfl⟩
  next hop => exact encode_of_decodeFReg h fun _ _ => ⟨hop.symm, rfl⟩
  next hop => exact encode_of_decodeFReg h fun _ _ => ⟨hop.symm, rfl⟩
  next hop => exact encode_of_decodeFReg h fun _ _ => ⟨hop.symm, rfl⟩
  next hop => exact encode_of_decodeN h ⟨hop.symm, rfl⟩
  next hop => exact encode_of_decodeN h ⟨hop.symm, rfl⟩
  next hop => exact encode_of_decodeN h ⟨hop.symm, rfl⟩
  next hop => exact encode_of_decodeN h ⟨hop.symm, rfl⟩
  next hop => exact encode_of_decodeP h fun _ _ => ⟨hop.symm, rfl⟩
  next hop => exact encode_of_decodeN h ⟨hop.symm, rfl⟩
  next hop => exact encode_of_decodeN h ⟨hop.symm, rfl⟩
  next hop => exact encode_of_decodeC h fun _ _ => ⟨hop.symm, rfl⟩
  next hop => exact encode_of_decodeC h fun _ _ => ⟨hop.symm, rfl⟩
  next hop => exact encode_of_decodeC h fun _ _ => ⟨hop.symm, rfl⟩
  next hop => exact encode_of_decodeCNoP h fun _ => ⟨hop.symm, rfl⟩
  next => cases h

end Sys2Proof
end

section
/-! SUPPORT. What a command can answer, said once for all 28: discarded, failed by one of the checks of R194 to R199, or
done with one of eight effects. -/

namespace Sys2Proof.Machine

variable {cs : List (Option CommandError)} {f : State → State} {i : Instr} {s t : State} {e : CommandError}

/-- What the checks of a decoded command can raise at `s`: FIELD, RANGE or PHOVF with address 0, or BOUNDS with the
address of R196. ILLEGAL is not among them: it is raised before a command is decoded (R193). -/
inductive CheckError (s : State) : CommandError → Prop
  | field : CheckError s ⟨.field, 0⟩
  | range : CheckError s ⟨.range, 0⟩
  | phovf : CheckError s ⟨.phovf, 0⟩
  | bounds (a : Nat) : CheckError s ⟨.bounds, s.boundsAddr a⟩

theorem fieldCheck_error {w sh n : Nat} (h : fieldCheck w sh n = some e) : CheckError s e := by
  unfold fieldCheck at h
  split at h <;> cases h
  exact .field

theorem State.rangeCheck_error (h : s.rangeCheck = some e) : CheckError s e := by
  unfold State.rangeCheck at h
  split at h <;> cases h
  exact .range

theorem State.roomCheck_error {k : Nat} (h : s.roomCheck k = some e) : CheckError s e := by
  unfold State.roomCheck at h
  split at h <;> cases h
  exact .phovf

theorem State.spanCheck_error {a n : Nat} (h : s.spanCheck a n = some e) : CheckError s e := by
  unfold State.spanCheck at h
  split at h <;> cases h
  exact .bounds a

theorem firstError_cons_eq_none {c : Option CommandError} :
    firstError (c :: cs) = none ↔ c = none ∧ firstError cs = none := by
  cases c <;> simp

/-- A list of checks each of which raises only a `CheckError`. -/
def ChecksOf (s : State) (cs : List (Option CommandError)) : Prop := ∀ e, some e ∈ cs → CheckError s e

@[simp] theorem checksOf_nil : ChecksOf s [] := by simp [ChecksOf]

@[simp] theorem checksOf_cons {c : Option CommandError} :
    ChecksOf s (c :: cs) ↔ (∀ e, c = some e → CheckError s e) ∧ ChecksOf s cs := by
  simp [ChecksOf, or_imp, forall_and, eq_comm]

/-- What a command that passes its checks leaves, for every command: no field but the ones a constructor names changes,
a MEM write lies in the buffer and in the bytes R57 lists for the command, and the pseudo-header stays within its 40
bytes. -/
inductive Effect (s : State) : Instr → State → Prop
  | nothing : Effect s .nop s
  | result {i : Instr} (hi : writesRdata i = true) (v : Nat) : Effect s i (s.setRdata v)
  | store {i : Instr} (a n v : Nat) (hb : n = 0 ∨ a + n ≤ s.bufLen.toNat)
    (hw : ∀ c, a ≤ c → c < a + n → WritesByte i s c) : Effect s i (s.memWrite a n v)
  | append {i : Instr} (hi : writesPseudoHeader i = true) (bs : List Byte) (hr : s.phLen + bs.length ≤ 40) :
    Effect s i (s.phAppend bs)
  | replace {i : Instr} (hi : writesPseudoHeader i = true) (bs : List Byte) (hr : bs.length ≤ 40) :
    Effect s i (s.phReplace bs)
  | sum (p : Bool) (fld c x : Nat) : Effect s (.cksum p fld) ((s.setRdata c).setCkSum x)
  | verify (p : Bool) (fld c x : Nat) (b : Bool) : Effect s (.ckver p fld) (((s.setRdata c).setCkSum x).setVok b)
  | apply (p : Bool) (fld c x v : Nat) (hb : s.absAddr fld + 2 ≤ s.bufLen.toNat) :
    Effect s (.ckapp p fld) (((s.setRdata c).setCkSum x).memWrite (s.absAddr fld) 2 v)

/-- What a command answers: itself discarded (R198), its error latched (R197), or its effect (R200). -/
inductive CommandResult (i : Instr) (s : State) : State → Prop
  | discarded (hs : s.err ≠ 0) : CommandResult i s s
  | failed (hs : s.err = 0) {e : CommandError} (he : CheckError s e) : CommandResult i s (s.raise e (encode i))
  | done (hs : s.err = 0) {t : State} (ht : Effect s i t) : CommandResult i s t

theorem runCommand_result (h : runCommand (encode i) cs f s = .next t) (hc : ChecksOf s cs)
    (hf : firstError cs = none → Effect s i (f s)) : CommandResult i s t := by
  rcases runCommand_cases h with ⟨hs, rfl⟩ | ⟨e, hs, he, rfl⟩ | ⟨hs, hn, rfl⟩
  · exact .discarded hs
  · exact .failed hs (hc e (firstError_mem he))
  · exact .done hs (hf hn)

theorem checksOf_span {a n : Nat} : ChecksOf s [s.spanCheck a n] := by
  simpa using fun _ => State.spanCheck_error

theorem checksOf_container {c a w sh : Nat} : ChecksOf s (s.containerChecks c a w sh) := by
  simpa [State.containerChecks] using ⟨fun _ => fieldCheck_error, fun _ => State.spanCheck_error⟩

theorem checksOf_checksum {fld : Nat} : ChecksOf s (s.checksumChecks fld) := by
  simpa [State.checksumChecks] using
    ⟨fun _ => State.rangeCheck_error, fun _ => State.spanCheck_error, fun _ => State.spanCheck_error⟩

theorem checksOf_field {w sh n : Nat} : ChecksOf s [fieldCheck w sh n] := by
  simpa using fun _ => fieldCheck_error

theorem checksOf_room {k : Nat} : ChecksOf s [s.roomCheck k] := by
  simpa using fun _ => State.roomCheck_error

theorem checksOf_copy {k a n : Nat} : ChecksOf s [s.roomCheck k, s.spanCheck a n] := by
  simpa using ⟨fun _ => State.roomCheck_error, fun _ => State.spanCheck_error⟩

theorem span_of_passed {a n : Nat} (h : firstError [s.spanCheck a n] = none) : n = 0 ∨ a + n ≤ s.bufLen.toNat :=
  State.spanCheck_eq_none.1 (firstError_cons_eq_none.1 h).1

theorem span_of_container_passed {c a w sh : Nat} (h : firstError (s.containerChecks c a w sh) = none) :
    c = 0 ∨ a + c ≤ s.bufLen.toNat :=
  span_of_passed (firstError_cons_eq_none.1 h).2

theorem field_of_checksum_passed {fld : Nat} (h : firstError (s.checksumChecks fld) = none) :
    s.absAddr fld + 2 ≤ s.bufLen.toNat := by
  simp only [State.checksumChecks, firstError_cons_eq_none, State.spanCheck_eq_none] at h
  omega

theorem room_of_passed {k : Nat} (h : firstError (s.roomCheck k :: cs) = none) : s.phLen + k ≤ 40 :=
  State.roomCheck_eq_none.1 (firstError_cons_eq_none.1 h).1

/-- Everything a command can answer, whichever it is and in whatever state. -/
theorem exec_result (h : exec i s = .next t) : CommandResult i s t := by
  cases i <;> simp only [exec] at h
  case nop => exact runCommand_result h checksOf_nil fun _ => .nothing
  case ofs off => exact runCommand_result h checksOf_nil fun _ => .result rfl _
  case ld8 off => exact runCommand_result h checksOf_span fun _ => .result rfl _
  case ld16 off => exact runCommand_result h checksOf_span fun _ => .result rfl _
  case ld32 off => exact runCommand_result h checksOf_span fun _ => .result rfl _
  case st8 off =>
    exact runCommand_result h checksOf_span fun hn =>
      .store _ _ _ (span_of_passed hn) fun _ h₁ h₂ => Nat.le_antisymm (Nat.le_of_lt_succ h₂) h₁
  case st16 off =>
    exact runCommand_result h checksOf_span fun hn =>
      .store _ _ _ (span_of_passed hn) fun _ h₁ h₂ => ⟨h₁, h₂⟩
  case st32 off =>
    exact runCommand_result h checksOf_span fun hn =>
      .store _ _ _ (span_of_passed hn) fun _ h₁ h₂ => ⟨h₁, h₂⟩
  case fld8 w sh off => exact runCommand_result h checksOf_container fun _ => .result rfl _
  case fld16 w sh off => exact runCommand_result h checksOf_container fun _ => .result rfl _
  case fld32 w sh off => exact runCommand_result h checksOf_container fun _ => .result rfl _
  case fst8 w sh off =>
    exact runCommand_result h checksOf_container fun hn =>
      .store _ _ _ (span_of_container_passed hn) fun _ h₁ h₂ => Nat.le_antisymm (Nat.le_of_lt_succ h₂) h₁
  case fst16 w sh off =>
    exact runCommand_result h checksOf_container fun hn =>
      .store _ _ _ (span_of_container_passed hn) fun _ h₁ h₂ => ⟨h₁, h₂⟩
  case fst32 w sh off =>
    exact runCommand_result h checksOf_container fun hn =>
      .store _ _ _ (span_of_container_passed hn) fun _ h₁ h₂ => ⟨h₁, h₂⟩
  case fmsk w sh => exact runCommand_result h checksOf_field fun _ => .result rfl _
  case fext w sh => exact runCommand_result h checksOf_field fun _ => .result rfl _
  case fins w sh => exact runCommand_result h checksOf_field fun _ => .result rfl _
  case phclr => exact runCommand_result h checksOf_nil fun _ => .replace rfl _ (by simp)
  case phb8 => exact runCommand_result h checksOf_room fun hn => .append rfl _ (by simpa using room_of_passed hn)
  case phb16 => exact runCommand_result h checksOf_room fun hn => .append rfl _ (by simpa using room_of_passed hn)
  case phb32 => exact runCommand_result h checksOf_room fun hn => .append rfl _ (by simpa using room_of_passed hn)
  case phcpy n off =>
    exact runCommand_result h checksOf_copy fun hn => .append rfl _ (by simpa using room_of_passed hn)
  case ph4 =>
    exact runCommand_result h checksOf_span fun _ => .replace rfl _ (by simp [State.ipv4PseudoHeader])
  case ph6 =>
    exact runCommand_result h checksOf_span fun _ => .replace rfl _ (by simp [State.ipv6PseudoHeader])
  case cksum p fld => exact runCommand_result h checksOf_checksum fun _ => .sum ..
  case ckver p fld => exact runCommand_result h checksOf_checksum fun _ => .verify ..
  case ckapp p fld =>
    exact runCommand_result h checksOf_checksum fun hn => .apply _ _ _ _ _ (field_of_checksum_passed hn)
  case ckclr fld =>
    exact runCommand_result h checksOf_span fun hn =>
      .store _ _ _ (span_of_passed hn) fun _ h₁ h₂ => ⟨h₁, h₂⟩

/-! What an effect leaves unchanged, field by field (R25 to R32, R41). -/

theorem Effect.err_eq (h : Effect s i t) : t.err = s.err := by cases h <;> rfl

theorem Effect.hostFields_eq (h : Effect s i t) : t.base = s.base ∧ t.wdata = s.wdata ∧ t.ckEnd = s.ckEnd ∧
    t.bufLen = s.bufLen ∧ t.pending = s.pending ∧ t.reply = s.reply := by
  cases h <;> exact ⟨rfl, rfl, rfl, rfl, rfl, rfl⟩

theorem Effect.vok_eq (h : Effect s i t) (hi : ∀ p fld, i ≠ .ckver p fld) : t.vok = s.vok := by
  cases h with
  | verify p fld => exact absurd rfl (hi p fld)
  | _ => rfl

theorem Effect.rdata_eq (h : Effect s i t) (hi : writesRdata i = false) : t.rdata = s.rdata := by
  cases h with
  | result hw => rw [hi] at hw; cases hw
  | sum | verify | apply => cases hi
  | _ => rfl

theorem Effect.ckSum_eq (h : Effect s i t) (hi : sumsRange i = false) : t.ckSum = s.ckSum := by
  cases h with
  | sum | verify | apply => cases hi
  | _ => rfl

theorem Effect.pseudoHeader_eq (h : Effect s i t) (hi : writesPseudoHeader i = false) :
    t.phbuf = s.phbuf ∧ t.phLen = s.phLen := by
  cases h with
  | append hw | replace hw => rw [hi] at hw; cases hw
  | _ => exact ⟨rfl, rfl⟩

end Sys2Proof.Machine
end

section
/-! ## What no command writes -/

namespace Sys2Proof.Machine

/-- Settles O22: no command's effect reaches the host's registers, and an error writes the latch alone. -/
theorem commandsKeepHostRegisters : Obligations.CommandsKeepHostRegisters := by
  intro i s t h
  cases exec_result h with
  | discarded | failed => exact ⟨rfl, rfl, rfl, rfl, rfl, rfl⟩
  | done _ ht => exact ht.hostFields_eq

/-- Settles O23: of the effects only CKVER's sets VOK, and a command that takes its effect leaves ERR at 0. -/
theorem onlyCkverWritesVok : Obligations.OnlyCkverWritesVok := by
  intro i s t h hi
  cases exec_result h with
  | discarded | failed => rfl
  | done hs ht =>
    rcases hi with hi | herr
    · exact ht.vok_eq hi
    · exact absurd (ht.err_eq.trans hs) herr

/-- Settles O24: an effect writes a result register only in a command the spec names for it. -/
theorem resultsWrittenOnlyByTheirCommands : Obligations.ResultsWrittenOnlyByTheirCommands := by
  intro i s t h
  cases exec_result h with
  | discarded | failed => exact ⟨fun _ => rfl, fun _ => rfl, fun _ => ⟨rfl, rfl⟩⟩
  | done _ ht => exact ⟨ht.rdata_eq, ht.ckSum_eq, ht.pseudoHeader_eq⟩

end Sys2Proof.Machine
end

section
/-! SUPPORT. The host's register port, offset by offset, and everything a host operation can answer. -/

namespace Sys2Proof.Machine

variable {s t : State} {off : Nat} {v : Word}

/-- A read at an aligned offset of the register space returns what the map holds there (R24, R39). -/
theorem readsAs_readRegister (s : State) (h4 : off % 4 = 0) (h : off < 128) : ReadsAs s off (s.readRegister off) := by
  intro rest
  rw [step_of_pending rfl, hostStep, registerAccess_ok h4 h]
  rfl

/-- A write at an aligned offset of the register space does what the map says there (R24). -/
theorem writesTo_of_writeRegister (h4 : off % 4 = 0) (h : off < 128)
    (hw : ∀ rest, writeRegister off v (s.setPending rest) = .next (t.setPending rest)) : WritesTo s off v t := by
  intro rest
  rw [step_of_pending rfl, hostStep, registerAccess_ok h4 h]
  exact hw rest

/-- An offset that is none of CMD, BASE, WDATA, CK_END and ECLR ignores a write (R37). -/
theorem writesTo_ignored (h4 : off % 4 = 0) (h : off < 128) (hoff : off ∉ [0x00, 0x08, 0x0C, 0x14, 0x2C]) :
    WritesTo s off v s := by
  refine writesTo_of_writeRegister h4 h fun rest => ?_
  unfold writeRegister
  split
  case h_6 => rfl
  all_goals simp at hoff

/-- PHBUFk is the four bytes of PHBUF from 4k, the first one highest (R36). -/
theorem State.phbufWord_eq (s : State) (k : Nat) :
    s.phbufWord k = s.phByte (4 * k) ++ s.phByte (4 * k + 1) ++ s.phByte (4 * k + 2) ++ s.phByte (4 * k + 3) := by
  apply BitVec.eq_of_toNat_eq
  have h0 := (s.phByte (4 * k)).isLt
  have h1 := (s.phByte (4 * k + 1)).isLt
  have h2 := (s.phByte (4 * k + 2)).isLt
  have h3 := (s.phByte (4 * k + 3)).isLt
  simp only [State.phbufWord, BitVec.toNat_ofNat, BitVec.toNat_append, beValue, List.length]
  rw [← Nat.shiftLeft_add_eq_or_of_lt h1, ← Nat.shiftLeft_add_eq_or_of_lt h2, ← Nat.shiftLeft_add_eq_or_of_lt h3]
  simp only [Nat.shiftLeft_eq]
  omega

/-- The map's offsets from 0x40 to 0x64 are the ten words of PHBUF (R36). -/
theorem State.readRegister_phbuf (s : State) {k : Nat} (hk : k < 10) :
    s.readRegister (0x40 + 4 * k) = s.phbufWord k := by
  unfold State.readRegister
  split
  case h_11 => rw [if_pos (by omega), show (0x40 + 4 * k - 0x40) / 4 = k by omega]
  all_goals omega

/-- ECLR and every reserved offset read 0 (R35, R37). -/
theorem State.readRegister_reserved (s : State) (h : 0x2C ≤ off) (hph : off < 0x40 ∨ 0x64 < off) :
    s.readRegister off = 0 := by
  unfold State.readRegister
  split
  case h_11 => rw [if_neg (by omega)]
  all_goals omega

/-- STATUS as a number (R25). -/
theorem State.status_toNat (s : State) : s.status.toNat = s.err.toNat + (if s.vok then 256 else 0) := by
  have := s.err.isLt
  rw [State.status, BitVec.toNat_ofNat]
  split <;> omega

/-- An odd register access is refused whatever it would do, inside the register space or outside (R38, log 14). -/
theorem registerAccess_odd {width : Nat} {f : State → Host.Outcome State Fault Refusal}
    (h : width ≠ 32 ∨ off % 4 ≠ 0) : registerAccess width off s f = .refused .oddRegisterAccess := by
  rw [registerAccess, if_neg (by omega)]

/-- Everything a host operation can do: run the command whose word it wrote to CMD, or one of the port's own effects. -/
inductive HostResult (s : State) : State → Prop
  | command {v : Word} {i : Instr} {t : State} (hd : decode v = .command i) (h : exec i s = .next t) : HostResult s t
  | illegal {v : Word} {why : IllegalReason} (hd : decode v = .illegal why) : HostResult s (s.raise ⟨.illegal, 0⟩ v)
  | ignored : HostResult s s
  | base (v : Word) : HostResult s (s.setBase v)
  | wdata (v : Word) : HostResult s (s.setWdata v)
  | ckEnd (v : Word) : HostResult s (s.setCkEnd v)
  | unlocked : HostResult s s.clearError
  | replied (v : Word) : HostResult s (s.setReply v)
  | byte {a : Nat} (b : Byte) (ha : a < s.bufLen.toNat) : HostResult s (s.setByte a b)
  | reset : HostResult s s.applyReset

theorem issueCommand_result (h : issueCommand v s = .next t) : HostResult s t := by
  rcases issueCommand_cases h with ⟨-, rfl⟩ | ⟨-, ⟨why, hd⟩, rfl⟩ | ⟨-, i, hd, hx⟩
  · exact .ignored
  · exact .illegal hd
  · exact .command hd hx

theorem writeRegister_result (h : writeRegister off v s = .next t) : HostResult s t := by
  rcases writeRegister_cases h with ⟨-, hv⟩ | rfl | rfl | rfl | rfl | rfl
  · exact issueCommand_result hv
  · exact .base v
  · exact .wdata v
  · exact .ckEnd v
  · exact .unlocked
  · exact .ignored

/-- No command and no host operation writes BUF_LEN (R32). -/
theorem HostResult.bufLen_eq (h : HostResult s t) : t.bufLen = s.bufLen := by
  cases h with
  | command _ hx =>
    obtain ⟨-, -, -, hlen, -, -⟩ := commandsKeepHostRegisters _ _ _ hx
    exact hlen
  | _ => rfl

theorem hostStep_result {op : HostOp} (h : hostStep op s = .next t) : HostResult s t := by
  cases op <;> simp only [hostStep] at h
  case regWrite width off v =>
    obtain ⟨-, -, -, hw⟩ := registerAccess_cases h
    exact writeRegister_result hw
  case regRead width off =>
    obtain ⟨-, -, -, hr⟩ := registerAccess_cases h
    cases hr; exact .replied _
  case memWrite a b =>
    obtain ⟨ha, hw⟩ := memoryAccess_cases h
    cases hw; exact .byte b ha
  case memRead a =>
    obtain ⟨-, hr⟩ := memoryAccess_cases h
    cases hr; exact .replied _
  case reset => cases h; exact .reset

end Sys2Proof.Machine
end

section
/-! ## The host's registers -/

namespace Sys2Proof.Machine

/-- Settles O11: a step takes the access off the queue, and the port refuses an odd one before it reads the map. -/
theorem oddRegisterAccessRefused : Obligations.OddRegisterAccessRefused := by
  intro s width off v rest h
  constructor <;> rw [step_of_pending rfl] <;> exact registerAccess_odd h

/-- Settles O9: every aligned read returns what the map holds; STATUS, CK_SUM and PHBUFk need their value restated. -/
theorem hostReadsReturnRegisters : Obligations.HostReadsReturnRegisters := by
  intro s
  have read {off : Nat} (h4 : off % 4 = 0) (h : off < 128) := readsAs_readRegister s h4 h
  have readCkSum : ReadsAs s 0x18 (s.ckSum.setWidth 32) := by
    rw [← BitVec.ofNat_toNat]
    exact read (off := 0x18) rfl (by decide)
  have readPhbuf (k : Nat) (hk : k < 10) : ReadsAs s (0x40 + 4 * k)
      (s.phByte (4 * k) ++ s.phByte (4 * k + 1) ++ s.phByte (4 * k + 2) ++ s.phByte (4 * k + 3)) := by
    rw [← s.phbufWord_eq, ← s.readRegister_phbuf hk]
    exact read (by omega) (by omega)
  exact ⟨read rfl (by decide), ⟨s.status, read rfl (by decide), s.status_toNat⟩, read rfl (by decide),
    read rfl (by decide), read rfl (by decide), read rfl (by decide), readCkSum, read rfl (by decide),
    read rfl (by decide), read rfl (by decide), read rfl (by decide), read rfl (by decide), readPhbuf,
    fun _ h h4 => ⟨_, read h4 h⟩⟩

/-- Settles O10: five offsets take a write, and every other aligned offset ignores it. -/
theorem hostWritesReachRegisters : Obligations.HostWritesReachRegisters := by
  intro s v
  refine ⟨writesTo_of_writeRegister rfl (by decide) fun _ => rfl,
    writesTo_of_writeRegister rfl (by decide) fun _ => rfl, writesTo_of_writeRegister rfl (by decide) fun _ => rfl,
    writesTo_of_writeRegister rfl (by decide) fun _ => rfl, readsAs_readRegister s rfl (by decide),
    fun off hoff => ?_, fun off hoff => ?_, fun k hk => writesTo_ignored (by omega) (by omega) ?_⟩
  · have hfree : off % 4 = 0 ∧ off < 128 ∧ off ∉ [0x00, 0x08, 0x0C, 0x14, 0x2C] ∧ 0x2C ≤ off ∧
        (off < 0x40 ∨ 0x64 < off) := by
      revert off; decide
    obtain ⟨h4, h, hw, hlow, hph⟩ := hfree
    exact ⟨s.readRegister_reserved hlow hph ▸ readsAs_readRegister s h4 h, writesTo_ignored h4 h hw⟩
  · have hfree : off % 4 = 0 ∧ off < 128 ∧ off ∉ [0x00, 0x08, 0x0C, 0x14, 0x2C] := by
      revert off; decide
    obtain ⟨h4, h, hw⟩ := hfree
    exact writesTo_ignored h4 h hw
  · simp only [List.mem_cons, List.not_mem_nil, or_false]; omega

/-- Settles O17: BUFLEN is a register of the map, and no host operation, a command among them, changes its value. -/
theorem stepKeepsBufferLength : Obligations.StepKeepsBufferLength := by
  refine ⟨fun s => readsAs_readRegister s rfl (by decide), fun s t h => ?_⟩
  rcases step_cases h with ⟨-, rfl⟩ | ⟨op, rest, -, hop⟩
  · rfl
  · exact (hostStep_result hop).bufLen_eq

end Sys2Proof.Machine
end

section
/-! SUPPORT. The invariant along every named update of the state, every effect of a command and every host operation. -/

namespace Sys2Proof.Machine

variable {s t : State} {i : Instr}

theorem State.Inv.setPending (h : s.Inv) (ops : List HostOp) : (s.setPending ops).Inv := { h with }
theorem State.Inv.setReply (h : s.Inv) (v : Word) : (s.setReply v).Inv := { h with }
theorem State.Inv.setBase (h : s.Inv) (v : Word) : (s.setBase v).Inv := { h with }
theorem State.Inv.setWdata (h : s.Inv) (v : Word) : (s.setWdata v).Inv := { h with }
theorem State.Inv.setCkEnd (h : s.Inv) (v : Word) : (s.setCkEnd v).Inv := { h with }
theorem State.Inv.setRdata (h : s.Inv) (v : Nat) : (s.setRdata v).Inv := { h with }
theorem State.Inv.setCkSum (h : s.Inv) (v : Nat) : (s.setCkSum v).Inv := { h with }
theorem State.Inv.setVok (h : s.Inv) (v : Bool) : (s.setVok v).Inv := { h with }

theorem State.Inv.setByte (h : s.Inv) {a : Nat} (ha : a < s.bufLen.toNat) (b : Byte) : (s.setByte a b).Inv :=
  { h with
    memCanonical := Memory.wf_writeByte _ _ _ h.memCanonical
    memInBuffer := fun c hc => by
      rcases Memory.mem_writeByte _ _ _ _ hc with rfl | hc
      · exact ha
      · exact h.memInBuffer c hc }

theorem State.Inv.memWrite (h : s.Inv) {a n : Nat} (hb : n = 0 ∨ a + n ≤ s.bufLen.toNat) (v : Nat) :
    (s.memWrite a n v).Inv :=
  { h with
    memCanonical := Memory.wf_writeBytes _ _ _ h.memCanonical
    memInBuffer := s.memWrite_inBuffer a n v h.memInBuffer hb }

theorem State.Inv.phAppend (h : s.Inv) {bs : List Byte} (hr : s.phLen + bs.length ≤ 40) : (s.phAppend bs).Inv :=
  { h with
    phRoom := hr
    phClean := fun j hj => by
      rw [State.phAppend_phLen] at hj
      rw [State.phByte_phAppend, if_neg (by omega), h.phClean j (by omega)] }

theorem State.Inv.phReplace (h : s.Inv) {bs : List Byte} (hr : bs.length ≤ 40) : (s.phReplace bs).Inv :=
  { h with
    phRoom := hr
    phClean := fun j hj => by
      rw [State.phReplace_phLen] at hj
      rw [State.phByte_phReplace, if_neg (by omega)] }

theorem State.Inv.clearError (h : s.Inv) : s.clearError.Inv :=
  { h with
    errCode := Nat.zero_le _
    latchClear := fun _ => ⟨rfl, rfl⟩
    addrOnlyForBounds := fun _ => rfl
    addrOutside := by simp
    latchedWord := by simp }

/-- Reset clears the latch, as ECLR does, and empties the pseudo-header. -/
theorem State.Inv.applyReset (h : s.Inv) : s.applyReset.Inv :=
  { h.clearError with
    phRoom := Nat.zero_le _
    phClean := fun j _ => zeroedPhbuf_getD j }

/-- The latch after an illegal word: code 1, address 0, and the word is one that does not decode. -/
theorem State.Inv.raise_illegal (h : s.Inv) {v : Word} {why : IllegalReason} (hd : decode v = .illegal why) :
    (s.raise ⟨.illegal, 0⟩ v).Inv :=
  { h with
    errCode := by simp [errorCode]
    latchClear := by simp [errorCode]
    addrOnlyForBounds := fun _ => rfl
    addrOutside := by simp [errorCode]
    latchedWord := by simp [errorCode, hd] }

/-- BUF_LEN fits in 32 bits, so the saturated address of BOUNDS is never below it (R196). -/
theorem State.bufLen_le_boundsAddr (s : State) (a : Nat) : s.bufLen.toNat ≤ (s.boundsAddr a).toNat := by
  have := s.bufLen.isLt
  rw [State.boundsAddr_toNat]
  omega

/-- The latch after a failed check: a code other than ILLEGAL's, an address for BOUNDS only, and a word that decodes. -/
theorem State.Inv.raise_check (h : s.Inv) {e : CommandError} (he : CheckError s e) {v : Word}
    (hd : decode v = .command i) : (s.raise e v).Inv :=
  { h with
    errCode := by cases he <;> simp [errorCode]
    latchClear := fun h0 => absurd h0 (errorCode_ne_zero _)
    addrOnlyForBounds := by cases he <;> simp [errorCode]
    addrOutside := by cases he <;> simp [errorCode, State.bufLen_le_boundsAddr]
    latchedWord := by cases he <;> simp [errorCode, hd] }

theorem Effect.keeps_inv (ht : Effect s i t) (h : s.Inv) : t.Inv := by
  cases ht with
  | nothing => exact h
  | result _ v => exact h.setRdata v
  | store a n v hb => exact h.memWrite hb v
  | append _ bs hr => exact h.phAppend hr
  | replace _ bs hr => exact h.phReplace hr
  | sum p fld c x => exact (h.setRdata c).setCkSum x
  | verify p fld c x b => exact ((h.setRdata c).setCkSum x).setVok b
  | apply p fld c x v hb => exact ((h.setRdata c).setCkSum x).memWrite (.inr hb) v

/-- A command keeps the invariant if its word decodes: ERRCMD may take that word. -/
theorem exec_keeps_inv (hd : decode (encode i) = .command i) (hx : exec i s = .next t) (h : s.Inv) : t.Inv := by
  cases exec_result hx with
  | discarded => exact h
  | failed _ he => exact h.raise_check he hd
  | done _ ht => exact ht.keeps_inv h

theorem HostResult.keeps_inv (ht : HostResult s t) (h : s.Inv) : t.Inv := by
  cases ht with
  | command hd hx => exact exec_keeps_inv (by rw [encode_of_decode hd, hd]) hx h
  | illegal hd => exact h.raise_illegal hd
  | ignored => exact h
  | base v => exact h.setBase v
  | wdata v => exact h.setWdata v
  | ckEnd v => exact h.setCkEnd v
  | unlocked => exact h.clearError
  | replied v => exact h.setReply v
  | byte b ha => exact h.setByte ha b
  | reset => exact h.applyReset

end Sys2Proof.Machine
end

section
/-! ## The invariant along every step -/

namespace Sys2Proof.Machine

/-- Settles O16: an idle step changes nothing, and every other step is a host operation, which keeps the invariant. -/
theorem stepKeepsInvariant : Obligations.StepKeepsInvariant := by
  intro s t h hstep
  rcases step_cases hstep with ⟨-, rfl⟩ | ⟨op, rest, -, hop⟩
  · exact h
  · exact (hostStep_result hop).keeps_inv (h.setPending rest)

end Sys2Proof.Machine
end

section
/-! ## The host's memory port -/

namespace Sys2Proof.Machine

variable {s : State} {a : Nat}

/-- A step on a MEM write below BUF_LEN takes it off the queue and writes the byte (R52). -/
theorem step_memWrite (b : Byte) (rest : List HostOp) (ha : a < s.bufLen.toNat) :
    step { s with pending := .memWrite a b :: rest } = .next ((s.setPending rest).setByte a b) := by
  rw [step_of_pending rfl, hostStep]
  exact memoryAccess_ok (s := s.setPending rest) ha

/-- A step on a MEM read below BUF_LEN takes it off the queue and answers the byte (R52). -/
theorem step_memRead (rest : List HostOp) (ha : a < s.bufLen.toNat) :
    step { s with pending := .memRead a :: rest } =
      .next ((s.setPending rest).setReply (BitVec.ofNat 32 (s.byteAt a).toNat)) := by
  rw [step_of_pending rfl, hostStep]
  exact memoryAccess_ok (s := s.setPending rest) ha

/-- Settles O12: below BUF_LEN the port reaches MEM, where a byte written is the byte read and no other byte moves. -/
theorem hostMemoryPort : Obligations.HostMemoryPort := by
  intro s a b rest ha
  constructor
  · refine ⟨Memory.writeByte s.mem a b, step_memWrite b rest ha, ?_, fun c hc => ?_⟩
    · rw [Memory.readByte_writeByte, if_pos rfl]
    · rw [Memory.readByte_writeByte, if_neg hc, State.byteAt]
  · rw [step_memRead rest ha, BitVec.ofNat_toNat]
    rfl

end Sys2Proof.Machine
end

section
/-! ## The bytes a command writes -/

namespace Sys2Proof.Machine

variable {s t : State} {i : Instr}

/-- A write keeps every byte outside its span. -/
theorem State.byteAt_memWrite_outside (s : State) {a n c : Nat} (v : Nat) (hc : ¬ (a ≤ c ∧ c < a + n)) :
    (s.memWrite a n v).byteAt c = s.byteAt c := by
  rw [State.byteAt_memWrite, if_neg hc]

/-- An effect changes no byte but those R57 lists, and a span that passed its check ends within BUF_LEN (R56, R57). -/
theorem Effect.byteAt_eq (h : Effect s i t) {c : Nat} (hc : ¬ WritesByte i s c ∨ s.bufLen.toNat ≤ c) :
    t.byteAt c = s.byteAt c := by
  cases h with
  | store a n v hb hw =>
    refine s.byteAt_memWrite_outside v fun ⟨hlow, hhigh⟩ => ?_
    rcases hc with hc | hc
    · exact hc (hw c hlow hhigh)
    · omega
  | apply p fld r x v hb =>
    refine State.byteAt_memWrite_outside _ v fun hspan => ?_
    rcases hc with hc | hc
    · exact hc hspan
    · omega
  | _ => rfl

/-- Settles O25: a command discarded or failed writes no byte, and one that succeeds only those of its effect. -/
theorem commandsWriteOnlyTheirBytes : Obligations.CommandsWriteOnlyTheirBytes := by
  intro i s t a h ha
  cases exec_result h with
  | discarded | failed => rfl
  | done _ ht => exact ht.byteAt_eq ha

end Sys2Proof.Machine
end

section
/-! SUPPORT. Two states that agree on a span of MEM: every value the model reads there is the same in both. -/

namespace Sys2Proof.Machine

variable {s s' : State} {a b n : Nat}

/-- `s` and `s'` hold the same bytes at a, ..., a+n-1. -/
def AgreeOn (s s' : State) (a n : Nat) : Prop := ∀ c, a ≤ c → c < a + n → s'.byteAt c = s.byteAt c

theorem AgreeOn.sub (h : AgreeOn s s' a n) (b k : Nat) (hlow : a ≤ b) (hhigh : b + k ≤ a + n) : AgreeOn s s' b k :=
  fun c h₁ h₂ => h c (hlow.trans h₁) (h₂.trans_le hhigh)

theorem AgreeOn.memBytes (h : AgreeOn s s' a n) : s'.memBytes a n = s.memBytes a n :=
  List.map_congr_left fun c hc => by
    rw [List.mem_range'_1] at hc
    exact h c hc.1 hc.2

theorem AgreeOn.memRead (h : AgreeOn s s' a n) : s'.memRead a n = s.memRead a n :=
  congrArg beValue h.memBytes

/-- The IPv4 pseudo-header is made of bytes of the 20-byte fixed header (R146). -/
theorem AgreeOn.ipv4PseudoHeader (h : AgreeOn s s' b 20) : s'.ipv4PseudoHeader b = s.ipv4PseudoHeader b := by
  have hsrc := (h.sub (b + 12) 4 (by omega) (by omega)).memBytes
  have hdst := (h.sub (b + 16) 4 (by omega) (by omega)).memBytes
  have htotal := (h.sub (b + 2) 2 (by omega) (by omega)).memRead
  have hihl := h b (by omega) (by omega)
  have hproto := h (b + 9) (by omega) (by omega)
  simp only [State.ipv4PseudoHeader, State.ipv4UpperLength, State.ipv4HeaderLength, hsrc, hdst, htotal, hihl, hproto]

/-- The IPv6 pseudo-header is made of bytes of the 40-byte fixed header (R147). -/
theorem AgreeOn.ipv6PseudoHeader (h : AgreeOn s s' b 40) : s'.ipv6PseudoHeader b = s.ipv6PseudoHeader b := by
  have hsrc := (h.sub (b + 8) 16 (by omega) (by omega)).memBytes
  have hdst := (h.sub (b + 24) 16 (by omega) (by omega)).memBytes
  have hlen := (h.sub (b + 4) 2 (by omega) (by omega)).memBytes
  have hnext := h (b + 6) (by omega) (by omega)
  simp only [State.ipv6PseudoHeader, hsrc, hdst, hlen, hnext]

end Sys2Proof.Machine
end

section
/-! SUPPORT. One command at two states that differ in MEM only: what has to agree for its results to agree. -/

namespace Sys2Proof.Machine

variable {w : Word} {cs : List (Option CommandError)} {f : State → State} {i : Instr} {s t t' : State} {m : Memory}
  {fld : Nat} {p : Bool}

/-- The two states differ in MEM only. -/
def SameRegisters (t t' : State) : Prop := t' = { t with mem := t'.mem }

theorem sameRegisters_withMem (s : State) (m : Memory) : SameRegisters s { s with mem := m } := rfl

/-- An update `g` by one value whose registers do not depend on MEM keeps registers the same when the value is. -/
theorem SameRegisters.update {α : Type} (g : State → α → State)
    (hg : ∀ u m v, SameRegisters (g u v) (g { u with mem := m } v)) (h : SameRegisters t t') {v v' : α} (hv : v' = v) :
    SameRegisters (g t v) (g t' v') := by
  subst hv
  rw [h]
  exact hg t t'.mem v'

theorem SameRegisters.setRdata (h : SameRegisters t t') {v v' : Nat} (hv : v' = v) :
    SameRegisters (t.setRdata v) (t'.setRdata v') :=
  h.update State.setRdata (fun _ _ _ => rfl) hv

theorem SameRegisters.setCkSum (h : SameRegisters t t') {v v' : Nat} (hv : v' = v) :
    SameRegisters (t.setCkSum v) (t'.setCkSum v') :=
  h.update State.setCkSum (fun _ _ _ => rfl) hv

theorem SameRegisters.setVok (h : SameRegisters t t') {v v' : Bool} (hv : v' = v) :
    SameRegisters (t.setVok v) (t'.setVok v') :=
  h.update State.setVok (fun _ _ _ => rfl) hv

theorem SameRegisters.phAppend (h : SameRegisters t t') {bs bs' : List Byte} (hbs : bs' = bs) :
    SameRegisters (t.phAppend bs) (t'.phAppend bs') :=
  h.update State.phAppend (fun _ _ _ => rfl) hbs

theorem SameRegisters.phReplace (h : SameRegisters t t') {bs bs' : List Byte} (hbs : bs' = bs) :
    SameRegisters (t.phReplace bs) (t'.phReplace bs') :=
  h.update State.phReplace (fun _ _ _ => rfl) hbs

theorem SameRegisters.memWrite (h : SameRegisters t t') (a n : Nat) {v v' : Nat} (hv : v' = v) :
    SameRegisters (t.memWrite a n v) (t'.memWrite a n v') :=
  h.update (State.memWrite · a n) (fun _ _ _ => rfl) hv

/-- The sum of a range depends on no byte but those R57 lists for CKSUM: the field bytes count as 0 (R162). -/
theorem sum16_withMem (hr : ∀ c, ReadsByte (.cksum p fld) s c → m.readByte c = s.byteAt c) :
    State.sum16 { s with mem := m } p fld = s.sum16 p fld := by
  have hmain : State.mainRange { s with mem := m } (s.absAddr fld) = s.mainRange (s.absAddr fld) :=
    List.map_congr_left fun c hc => by
      obtain ⟨hlow, hhigh⟩ := List.mem_range'_1.1 hc
      have hend : c < s.ckEnd.toNat := by
        simp only [State.rangeStart, State.rangeLength] at hlow hhigh; omega
      by_cases hfield : c = s.absAddr fld ∨ c = s.absAddr fld + 1
      · simp only [State.zeroedByte, if_pos hfield]
      · simp only [State.zeroedByte, if_neg hfield]
        rw [not_or] at hfield
        exact hr c ⟨hlow, hend, hfield⟩
  exact congrArg (fun l => fold (wordSum ((if p then s.pseudoHeader else []) ++ l))) hmain

/-- C and sum16 are functions of the range's sum. -/
theorem sameRegisters_checksumResults (hr : ∀ c, ReadsByte (.cksum p fld) s c → m.readByte c = s.byteAt c) :
    SameRegisters (s.checksumResults p fld) (State.checksumResults { s with mem := m } p fld) :=
  ((sameRegisters_withMem s m).setRdata (congrArg (compl 16) (sum16_withMem hr))).setCkSum (sum16_withMem hr)

/-- What `i` leaves at two runs, `t` and `t'`: the same registers, and the same bytes where `i` writes at `s`. -/
def SameEffect (i : Instr) (s t t' : State) : Prop :=
  SameRegisters t t' ∧ ∀ a, WritesByte i s a → t'.byteAt a = t.byteAt a

theorem SameRegisters.sameEffect (h : SameRegisters t t') (hw : ∀ a, ¬ WritesByte i s a) : SameEffect i s t t' :=
  ⟨h, fun a ha => absurd ha (hw a)⟩

/-- The same number written over every byte `i` writes. -/
theorem SameRegisters.sameEffect_memWrite (h : SameRegisters t t') {a n v v' : Nat} (hv : v' = v)
    (hw : ∀ c, WritesByte i s c → a ≤ c ∧ c < a + n) : SameEffect i s (t.memWrite a n v) (t'.memWrite a n v') := by
  refine ⟨h.memWrite a n hv, fun c hc => ?_⟩
  rw [State.byteAt_memWrite, State.byteAt_memWrite, if_pos (hw c hc), if_pos (hw c hc), hv]

/-- No check and no lock reads MEM, so two runs of a command from states that differ in MEM only are discarded together,
fail together with the same error, or succeed together. -/
theorem runCommand_withMem (h : runCommand w cs f s = .next t) (hf : SameEffect i s (f s) (f { s with mem := m })) :
    ∃ t', runCommand w cs f { s with mem := m } = .next t' ∧ SameRegisters t t' ∧
      (s.err = 0 → t.err = 0 → ∀ a, WritesByte i s a → t'.byteAt a = t.byteAt a) := by
  rcases runCommand_cases h with ⟨hs, rfl⟩ | ⟨e, hs, he, rfl⟩ | ⟨hs, hn, rfl⟩
  · exact ⟨_, runCommand_locked hs, rfl, fun h0 => absurd h0 hs⟩
  · exact ⟨_, runCommand_error hs he, rfl, fun _ h0 => absurd h0 (errorCode_ne_zero _)⟩
  · exact ⟨_, runCommand_ok hs hn, hf.1, fun _ _ => hf.2⟩

/-- The span of a one-byte container. -/
theorem mem_span_one {a c : Nat} : a ≤ c ∧ c < a + 1 ↔ c = a := by omega

end Sys2Proof.Machine
end

section
/-! ## The bytes a command reads -/

namespace Sys2Proof.Machine

/-- Settles O26: each command's effect takes from MEM the bytes R57 lists for it, and what it writes is a function of
them and of registers. -/
theorem commandsReadOnlyTheirBytes : Obligations.CommandsReadOnlyTheirBytes := by
  intro i s t m hr h
  have hs := sameRegisters_withMem s m
  have span {a n : Nat} (hspan : ∀ c, a ≤ c ∧ c < a + n → ReadsByte i s c) : AgreeOn s { s with mem := m } a n :=
    fun c h₁ h₂ => hr c (hspan c ⟨h₁, h₂⟩)
  cases i <;> simp only [exec] at h ⊢
  case nop => exact runCommand_withMem h (hs.sameEffect fun _ => id)
  case ofs | fmsk | fext | fins => exact runCommand_withMem h ((hs.setRdata rfl).sameEffect fun _ => id)
  case ld8 => exact runCommand_withMem h ((hs.setRdata (span fun _ => mem_span_one.1).memRead).sameEffect fun _ => id)
  case ld16 | ld32 => exact runCommand_withMem h ((hs.setRdata (span fun _ => id).memRead).sameEffect fun _ => id)
  case st8 => exact runCommand_withMem h (hs.sameEffect_memWrite rfl fun _ => mem_span_one.2)
  case st16 | st32 | ckclr => exact runCommand_withMem h (hs.sameEffect_memWrite rfl fun _ => id)
  case fld8 w sh _ =>
    have hv := congrArg (extractField · w sh) (span fun _ => mem_span_one.1).memRead
    exact runCommand_withMem h ((hs.setRdata hv).sameEffect fun _ => id)
  case fld16 w sh _ | fld32 w sh _ =>
    have hv := congrArg (extractField · w sh) (span fun _ => id).memRead
    exact runCommand_withMem h ((hs.setRdata hv).sameEffect fun _ => id)
  case fst8 w sh _ =>
    exact runCommand_withMem h (hs.sameEffect_memWrite
      (congrArg (insertField _ · w sh _) (span fun _ => mem_span_one.1).memRead) fun _ => mem_span_one.2)
  case fst16 w sh _ | fst32 w sh _ =>
    exact runCommand_withMem h (hs.sameEffect_memWrite
      (congrArg (insertField _ · w sh _) (span fun _ => id).memRead) fun _ => id)
  case phclr => exact runCommand_withMem h ((hs.phReplace rfl).sameEffect fun _ => id)
  case phb8 | phb16 | phb32 => exact runCommand_withMem h ((hs.phAppend rfl).sameEffect fun _ => id)
  case phcpy => exact runCommand_withMem h ((hs.phAppend (span fun _ => id).memBytes).sameEffect fun _ => id)
  case ph4 => exact runCommand_withMem h ((hs.phReplace (span fun _ => id).ipv4PseudoHeader).sameEffect fun _ => id)
  case ph6 => exact runCommand_withMem h ((hs.phReplace (span fun _ => id).ipv6PseudoHeader).sameEffect fun _ => id)
  case cksum => exact runCommand_withMem h ((sameRegisters_checksumResults hr).sameEffect fun _ => id)
  case ckver p fld =>
    have hsum : ∀ c, ReadsByte (.cksum p fld) s c → m.readByte c = s.byteAt c :=
      fun c ⟨hlow, hhigh, _⟩ => hr c (.inl ⟨hlow, hhigh⟩)
    have hfield : AgreeOn s { s with mem := m } (s.absAddr fld) 2 :=
      span fun c ⟨hlow, hhigh⟩ => .inr (by unfold State.absAddr at hlow hhigh; omega)
    have hvok := congrArg₂ verifyFlag hfield.memRead (congrArg (compl 16) (sum16_withMem hsum))
    exact runCommand_withMem h (((sameRegisters_checksumResults hsum).setVok hvok).sameEffect fun _ => id)
  case ckapp =>
    exact runCommand_withMem h ((sameRegisters_checksumResults hr).sameEffect_memWrite
      (congrArg (compl 16) (sum16_withMem hr)) fun _ => id)

end Sys2Proof.Machine
end

section
/-! SUPPORT. A word against a command: the opcode field, the bits the command's format fixes, and the operands its
fields hold (spec 30_encoding.md sections 2 and 3); what the decoder and the encoder make of a word that spells a command. -/

namespace Sys2Proof

variable {v : Word} {i : Instr}

/-- The bits below the opcode that the format of `i` fixes have their value in `v`: the reserved ones are 0, and cw is
the container's (R73 to R80). -/
def FixedBits (v : Word) : Instr → Prop
  | .nop | .phclr | .phb8 | .phb16 | .phb32 | .ph4 | .ph6 => bits v 25 0 = 0
  | .ofs _ | .ld8 _ | .ld16 _ | .ld32 _ | .st8 _ | .st16 _ | .st32 _ | .ckclr _ => bits v 25 16 = 0
  | .fld8 _ _ _ | .fst8 _ _ _ => bits v 25 24 = 0
  | .fld16 _ _ _ | .fst16 _ _ _ => bits v 25 24 = 1
  | .fld32 _ _ _ | .fst32 _ _ _ => bits v 25 24 = 2
  | .fmsk _ _ | .fext _ _ | .fins _ _ => bits v 25 24 = 2 ∧ bits v 13 0 = 0
  | .phcpy _ _ => bits v 25 22 = 0
  | .cksum _ _ | .ckver _ _ | .ckapp _ _ => bits v 24 16 = 0

/-- `v` spells a command of the constructor of `i`, whatever the operands. -/
def Spells (v : Word) (i : Instr) : Prop := bits v 31 26 = opcode i ∧ FixedBits v i

/-- The command of the constructor of `i` with the operands in the fields of `v`. -/
def Instr.readOperands (v : Word) : Instr → Instr
  | .nop => .nop
  | .ofs _ => .ofs (bits v 15 0)
  | .ld8 _ => .ld8 (bits v 15 0)
  | .ld16 _ => .ld16 (bits v 15 0)
  | .ld32 _ => .ld32 (bits v 15 0)
  | .st8 _ => .st8 (bits v 15 0)
  | .st16 _ => .st16 (bits v 15 0)
  | .st32 _ => .st32 (bits v 15 0)
  | .fld8 _ _ _ => .fld8 (bits v 23 19 + 1) (bits v 18 14) (bits v 13 0)
  | .fld16 _ _ _ => .fld16 (bits v 23 19 + 1) (bits v 18 14) (bits v 13 0)
  | .fld32 _ _ _ => .fld32 (bits v 23 19 + 1) (bits v 18 14) (bits v 13 0)
  | .fst8 _ _ _ => .fst8 (bits v 23 19 + 1) (bits v 18 14) (bits v 13 0)
  | .fst16 _ _ _ => .fst16 (bits v 23 19 + 1) (bits v 18 14) (bits v 13 0)
  | .fst32 _ _ _ => .fst32 (bits v 23 19 + 1) (bits v 18 14) (bits v 13 0)
  | .fmsk _ _ => .fmsk (bits v 23 19 + 1) (bits v 18 14)
  | .fext _ _ => .fext (bits v 23 19 + 1) (bits v 18 14)
  | .fins _ _ => .fins (bits v 23 19 + 1) (bits v 18 14)
  | .phclr => .phclr
  | .phb8 => .phb8
  | .phb16 => .phb16
  | .phb32 => .phb32
  | .phcpy _ _ => .phcpy (bits v 21 16) (bits v 15 0)
  | .ph4 => .ph4
  | .ph6 => .ph6
  | .cksum _ _ => .cksum (decide (bits v 25 25 = 1)) (bits v 15 0)
  | .ckver _ _ => .ckver (decide (bits v 25 25 = 1)) (bits v 15 0)
  | .ckapp _ _ => .ckapp (decide (bits v 25 25 = 1)) (bits v 15 0)
  | .ckclr _ => .ckclr (bits v 15 0)

theorem bits_lt (v : Word) (hi lo : Nat) : bits v hi lo < 2 ^ (hi + 1 - lo) := Nat.mod_lt _ (Nat.two_pow_pos _)

theorem opcode_lt (i : Instr) : opcode i < 64 := by cases i <;> simp [opcode]

/-- A word that spells a command decodes to it, with the operands in its fields (R83). -/
theorem decode_of_spells (h : Spells v i) : decode v = .command (i.readOperands v) := by
  obtain ⟨hop, hfix⟩ := h
  cases i <;> simp only [decode, hop, opcode, Instr.readOperands]
  case fld8 | fld16 | fld32 | fst8 | fst16 | fst32 =>
    have hcw : bits v 25 24 = _ := hfix
    simp only [decodeF, hcw]
  case fmsk | fext | fins =>
    obtain ⟨hcw, hoff⟩ := hfix
    rw [decodeFReg, if_neg (by omega), if_pos ⟨hcw, hoff⟩]
  all_goals exact if_pos hfix

/-- The operands of a well-formed PHCPY fit format P (R79). -/
theorem phcpy_operands_lt {n off : Nat} (h : (Instr.phcpy n off).WellFormed) : n < 64 ∧ off < 2 ^ 16 := by
  obtain ⟨hn, hoff⟩ := Bool.and_eq_true_iff.1 h
  exact ⟨of_decide_eq_true hn, Laws.OpcodeField.fitsOff16_lt hoff⟩

/-- The operands of a well-formed command stay below the opcode field (R72). -/
theorem operandBits_lt (h : i.WellFormed) : operandBits i < 2 ^ 26 := by
  cases i
  case nop | phclr | phb8 | phb16 | phb32 | ph4 | ph6 => exact Nat.two_pow_pos 26
  case ofs | ld8 | ld16 | ld32 | st8 | st16 | st32 | ckclr =>
    exact lt_trans (Laws.OpcodeField.fitsOff16_lt h) (by decide)
  case fld8 | fld16 | fld32 | fst8 | fst16 | fst32 | fmsk | fext | fins =>
    exact Laws.OpcodeField.encodeF_lt (by decide) h
  case phcpy n off =>
    have hfit := phcpy_operands_lt h
    simp only [operandBits]
    omega
  case cksum | ckver | ckapp => exact Laws.OpcodeField.encodeC_lt h

theorem bits_encode_opcode (h : i.WellFormed) : bits (encode i) 31 26 = opcode i :=
  Laws.OpcodeField.of_operandBits_lt i (operandBits_lt h)

theorem bits_encode_operands (h : i.WellFormed) : bits (encode i) 25 0 = operandBits i := by
  have hlt := operandBits_lt h
  have hop := opcode_lt i
  simp only [bits, encode, BitVec.toNat_ofNat]
  omega

/-- A field of `v` below the opcode is a part of bits [25:0]. -/
theorem bits_eq_of_operands {x : Nat} (hx : bits v 25 0 = x) {hi lo : Nat} (h : hi < 26) :
    bits v hi lo = x / 2 ^ lo % 2 ^ (hi + 1 - lo) := by
  subst hx
  apply Nat.eq_of_testBit_eq
  intro j
  simp only [bits, Nat.testBit_mod_two_pow, Nat.testBit_div_two_pow, Nat.reduceAdd, Nat.sub_zero]
  by_cases hj : j < hi + 1 - lo
  · simp [hj, show j + lo < 26 by omega]
  · simp [hj]

/-- The word of a well-formed command has the bits its format fixes, and its fields hold the operands
(R73 to R80, R85). -/
theorem fixedBits_encode (h : i.WellFormed) : FixedBits (encode i) i ∧ i.readOperands (encode i) = i := by
  have hfield {hi lo : Nat} := bits_eq_of_operands (bits_encode_operands h) (hi := hi) (lo := lo)
  cases i <;> simp (disch := decide) only [FixedBits, Instr.readOperands, hfield, operandBits]
  case nop | phclr | phb8 | phb16 | phb32 | ph4 | ph6 => exact ⟨Nat.zero_mod _, trivial⟩
  case ofs | ld8 | ld16 | ld32 | st8 | st16 | st32 | ckclr =>
    have hoff := Laws.OpcodeField.fitsOff16_lt h
    exact ⟨by omega, congrArg _ (by omega)⟩
  case fld8 | fld16 | fld32 | fst8 | fst16 | fst32 | fmsk | fext | fins =>
    have hfit := of_decide_eq_true h
    simp only [encodeF]
    exact ⟨by omega, by congr 1 <;> omega⟩
  case phcpy n off =>
    have hfit := phcpy_operands_lt h
    exact ⟨by omega, by congr 1 <;> omega⟩
  case cksum p fld | ckver p fld | ckapp p fld =>
    have hfld := Laws.OpcodeField.fitsOff16_lt h
    cases p <;> simp [encodeC] <;> omega

theorem spells_encode (h : i.WellFormed) : Spells (encode i) i := ⟨bits_encode_opcode h, (fixedBits_encode h).1⟩

/-- The round trip from a command (R85). -/
theorem decode_encode (h : i.WellFormed) : decode (encode i) = .command i := by
  rw [decode_of_spells (spells_encode h), (fixedBits_encode h).2]

end Sys2Proof
end

section
/-! SUPPORT. Everything the decoder can answer, one lemma per format, then the decoder: so which words are illegal. -/

namespace Sys2Proof

variable {v : Word} {i : Instr}

theorem fitsOff16_bits (v : Word) : fitsOff16 (bits v 15 0) = true := decide_eq_true (bits_lt v 15 0)

/-- The operands read from format F's fields fit them (R75). -/
theorem fitsField_bits (v : Word) : fitsField (bits v 23 19 + 1) (bits v 18 14) (bits v 13 0) = true := by
  have := bits_lt v 23 19
  have := bits_lt v 18 14
  have := bits_lt v 13 0
  simp only [fitsField, decide_eq_true_eq]
  omega

/-- What the decoder answers on `v`: a well-formed command that `v` spells, or a rejection of a word that R82 and R83
name as illegal. -/
inductive DecodeResult (v : Word) : Decoded → Prop
  | command {i : Instr} (hwf : i.WellFormed) (hi : Spells v i) : DecodeResult v (.command i)
  | illegal {why : IllegalReason} (h : IllegalWord v) : DecodeResult v (.illegal why)

theorem decodeN_result (hi : bits v 25 0 = 0 → DecodeResult v (.command i)) (hill : bits v 25 0 ≠ 0 → IllegalWord v) :
    DecodeResult v (decodeN v i) := by
  unfold decodeN
  split
  next hres => exact hi hres
  next hres => exact .illegal (hill hres)

theorem decodeA_result {mk : Nat → Instr}
    (hmk : ∀ off, fitsOff16 off = true → bits v 25 16 = 0 → DecodeResult v (.command (mk off)))
    (hill : bits v 25 16 ≠ 0 → IllegalWord v) : DecodeResult v (decodeA v mk) := by
  unfold decodeA
  split
  next hres => exact hmk _ (fitsOff16_bits v) hres
  next hres => exact .illegal (hill hres)

theorem decodeF_result {mk8 mk16 mk32 : Nat → Nat → Nat → Instr}
    (h8 : ∀ w sh off, fitsField w sh off = true → bits v 25 24 = 0 → DecodeResult v (.command (mk8 w sh off)))
    (h16 : ∀ w sh off, fitsField w sh off = true → bits v 25 24 = 1 → DecodeResult v (.command (mk16 w sh off)))
    (h32 : ∀ w sh off, fitsField w sh off = true → bits v 25 24 = 2 → DecodeResult v (.command (mk32 w sh off)))
    (hill : bits v 25 24 = 3 → IllegalWord v) : DecodeResult v (decodeF v mk8 mk16 mk32) := by
  have hlt := bits_lt v 25 24
  unfold decodeF
  split
  next hcw => exact h8 _ _ _ (fitsField_bits v) hcw
  next hcw => exact h16 _ _ _ (fitsField_bits v) hcw
  next hcw => exact h32 _ _ _ (fitsField_bits v) hcw
  next h0 h1 h2 =>
    rw [imp_false] at h0 h1 h2
    exact .illegal (hill (by omega))

theorem decodeFReg_result {mk : Nat → Nat → Instr}
    (hmk : ∀ w sh, fitsField w sh 0 = true → bits v 25 24 = 2 ∧ bits v 13 0 = 0 → DecodeResult v (.command (mk w sh)))
    (hill : bits v 25 24 ≠ 2 ∨ bits v 13 0 ≠ 0 → IllegalWord v) : DecodeResult v (decodeFReg v mk) := by
  unfold decodeFReg
  split
  next hcw => exact .illegal (hill (by omega))
  next =>
    split
    next hreg => exact hmk _ _ (hreg.2 ▸ fitsField_bits v) hreg
    next hreg => exact .illegal (hill (by omega))

theorem decodeP_result {mk : Nat → Nat → Instr}
    (hmk : ∀ n off, (decide (n < 64) && fitsOff16 off) = true → bits v 25 22 = 0 → DecodeResult v (.command (mk n off)))
    (hill : bits v 25 22 ≠ 0 → IllegalWord v) : DecodeResult v (decodeP v mk) := by
  have hn : decide (bits v 21 16 < 64) = true := decide_eq_true (bits_lt v 21 16)
  unfold decodeP
  split
  next hres => exact hmk _ _ (Bool.and_eq_true_iff.2 ⟨hn, fitsOff16_bits v⟩) hres
  next hres => exact .illegal (hill hres)

theorem decodeC_result {mk : Bool → Nat → Instr}
    (hmk : ∀ p fld, fitsOff16 fld = true → bits v 24 16 = 0 → DecodeResult v (.command (mk p fld)))
    (hill : bits v 24 16 ≠ 0 → IllegalWord v) : DecodeResult v (decodeC v mk) := by
  unfold decodeC
  split
  next hres => exact hmk _ _ (fitsOff16_bits v) hres
  next hres => exact .illegal (hill hres)

/-- CKCLR's reserved bits, which R83 names in two parts: format C's [24:16], and bit 25. -/
theorem ckclr_reserved_iff : bits v 25 16 = 0 ↔ bits v 24 16 = 0 ∧ bits v 25 25 = 0 := by
  simp only [bits]
  omega

theorem decodeCNoP_result {mk : Nat → Instr}
    (hmk : ∀ fld, fitsOff16 fld = true → bits v 25 16 = 0 → DecodeResult v (.command (mk fld)))
    (hill : bits v 24 16 ≠ 0 ∨ bits v 25 25 ≠ 0 → IllegalWord v) : DecodeResult v (decodeCNoP v mk) :=
  decodeA_result hmk fun hres => hill (not_and_or.1 (mt ckclr_reserved_iff.2 hres))

/-- Everything the decoder can answer, one format at a time (R72, R81 to R83). -/
theorem decode_result (v : Word) : DecodeResult v (decode v) := by
  unfold decode
  split
  case h_1 hop | h_14 hop | h_15 hop | h_16 hop | h_17 hop | h_19 hop | h_20 hop =>
    exact decodeN_result (fun hres => .command rfl ⟨hop, hres⟩) fun hres => by simp [IllegalWord, hop, hres]
  case h_2 hop | h_3 hop | h_4 hop | h_5 hop | h_6 hop | h_7 hop | h_8 hop =>
    exact decodeA_result (fun _ hoff hres => .command hoff ⟨hop, hres⟩) fun hres => by simp [IllegalWord, hop, hres]
  case h_9 hop | h_10 hop =>
    exact decodeF_result (fun _ _ _ hfit hcw => .command hfit ⟨hop, hcw⟩)
      (fun _ _ _ hfit hcw => .command hfit ⟨hop, hcw⟩) (fun _ _ _ hfit hcw => .command hfit ⟨hop, hcw⟩)
      fun hcw => by simp [IllegalWord, hop, hcw]
  case h_11 hop | h_12 hop | h_13 hop =>
    exact decodeFReg_result (fun _ _ hfit hreg => .command hfit ⟨hop, hreg⟩) fun hreg => by
      simp [IllegalWord, hop, hreg]
  case h_18 hop =>
    exact decodeP_result (fun _ _ hfit hres => .command hfit ⟨hop, hres⟩) fun hres => by
      simp [IllegalWord, hop, hres]
  case h_21 hop | h_22 hop | h_23 hop =>
    exact decodeC_result (fun _ _ hfld hres => .command hfld ⟨hop, hres⟩) fun hres => by
      simp [IllegalWord, hop, hres]
  case h_24 hop =>
    exact decodeCNoP_result (fun _ hfld hres => .command hfld ⟨hop, hres⟩) fun hres => by
      simp [IllegalWord, hop, hres]
  case h_25 =>
    have := bits_lt v 31 26
    simp only [imp_false] at *
    refine .illegal ?_
    simp only [IllegalWord]
    omega

theorem wellFormed_spells_of_decode (h : decode v = .command i) : i.WellFormed ∧ Spells v i := by
  have hres := decode_result v
  rw [h] at hres
  cases hres with
  | command hwf hi => exact ⟨hwf, hi⟩

/-- A word that spells a command is none of those R82 and R83 name. -/
theorem not_illegalWord_of_spells (h : Spells v i) : ¬ IllegalWord v := by
  obtain ⟨hop, hfix⟩ := h
  cases i <;> simp only [opcode] at hop <;> simp only [FixedBits] at hfix
  case ckclr =>
    obtain ⟨hres, hp⟩ := ckclr_reserved_iff.1 hfix
    simp [IllegalWord, hop, hres, hp]
  all_goals simp [IllegalWord, hop, hfix]

theorem decode_illegal_iff : (∃ why, decode v = .illegal why) ↔ IllegalWord v := by
  have hres := decode_result v
  generalize decode v = d at hres
  cases hres with
  | command _ hi => simpa using not_illegalWord_of_spells hi
  | illegal hill => simpa using hill

/-- An illegal word written to CMD latches ILLEGAL, whichever check of the decoder rejects it (R193, R197). -/
theorem raisesIllegal_of_illegalWord (h : IllegalWord v) : RaisesIllegal v := by
  obtain ⟨why, hd⟩ := decode_illegal_iff.2 h
  refine ⟨⟨why, hd⟩, fun s rest hp hs => ?_⟩
  rw [Machine.step_of_pending hp, Machine.hostStep_cmd, Machine.issueCommand_illegal (s := s.setPending rest) hs hd]
  rfl

end Sys2Proof
end

section
/-! SUPPORT. The rows of the opcode table: a word matches a command's row exactly when it spells the command. -/

namespace Sys2Proof

variable {v : Word} {i : Instr}

/-- A mask cut at bit k takes the bits above and below it on their own. -/
theorem and_two_pow_mul_add (n a : Nat) {b k : Nat} (hb : b < 2 ^ k) :
    n &&& (2 ^ k * a + b) = 2 ^ k * (n / 2 ^ k &&& a) + (n % 2 ^ k &&& b) := by
  have hlow : n % 2 ^ k &&& b < 2 ^ k := Nat.and_lt_two_pow _ hb
  apply Nat.eq_of_testBit_eq
  intro j
  simp only [Nat.testBit_and, Nat.testBit_two_pow_mul_add _ hb, Nat.testBit_two_pow_mul_add _ hlow,
    Nat.testBit_div_two_pow, Nat.testBit_mod_two_pow]
  split
  next hj => simp [hj]
  next hj => simp [Nat.sub_add_cancel (Nat.not_lt.1 hj)]

/-- A row whose mask holds the whole opcode field compares the opcode and the masked bits below it. -/
theorem and_row_iff {op b c : Nat} (hop : op < 64) (hb : b < 2 ^ 26) (hc : c < 2 ^ 26) :
    v &&& BitVec.ofNat 32 (2 ^ 26 * 63 + b) = BitVec.ofNat 32 (2 ^ 26 * op + c) ↔
      bits v 31 26 = op ∧ bits v 25 0 &&& b = c := by
  have hlow : bits v 25 0 &&& b < 2 ^ 26 := Nat.and_lt_two_pow _ hb
  have hv := v.isLt
  have hopcode : bits v 31 26 = v.toNat / 2 ^ 26 % 2 ^ 6 := rfl
  have hoperands : bits v 25 0 = v.toNat % 2 ^ 26 := by simp [bits]
  rw [← BitVec.toNat_inj, BitVec.toNat_and, BitVec.toNat_ofNat, BitVec.toNat_ofNat, Nat.mod_eq_of_lt (by omega),
    Nat.mod_eq_of_lt (by omega), and_two_pow_mul_add _ _ hb, Nat.and_two_pow_sub_one_eq_mod _ 6, ← hopcode,
    ← hoperands]
  omega

/-- The row of a command whose format fixes one field `[hi:lo]` below the opcode. -/
theorem and_row_iff_of_field {hi lo c : Nat}
    (hmatch : (tableRow i).1 = BitVec.ofNat 32 (2 ^ 26 * opcode i + 2 ^ lo * c))
    (hmask : (tableRow i).2 = BitVec.ofNat 32 (2 ^ 26 * 63 + 2 ^ lo * (2 ^ (hi + 1 - lo) - 1)))
    (hfix : FixedBits v i ↔ bits v hi lo = c) (hhi : hi < 26 := by decide) (hlo : lo ≤ hi := by decide)
    (hc : c < 2 ^ (hi + 1 - lo) := by decide) : v &&& (tableRow i).2 = (tableRow i).1 ↔ Spells v i := by
  have hfield : bits v 25 0 &&& 2 ^ lo * (2 ^ (hi + 1 - lo) - 1) = 2 ^ lo * bits v hi lo := by
    have h := and_two_pow_mul_add (bits v 25 0) (2 ^ (hi + 1 - lo) - 1) (Nat.two_pow_pos lo)
    rw [bits_eq_of_operands rfl hhi]
    simpa [Nat.and_two_pow_sub_one_eq_mod] using h
  have hbelow {x : Nat} (hx : x < 2 ^ (hi + 1 - lo)) : 2 ^ lo * x < 2 ^ 26 := calc
    2 ^ lo * x < 2 ^ lo * 2 ^ (hi + 1 - lo) := Nat.mul_lt_mul_of_pos_left hx (Nat.two_pow_pos lo)
    _ = 2 ^ (hi + 1) := by rw [← pow_add, Nat.add_sub_cancel' (by omega)]
    _ ≤ 2 ^ 26 := Nat.pow_le_pow_right (by decide) hhi
  rw [hmask, hmatch, and_row_iff (opcode_lt i) (hbelow (Nat.sub_one_lt (Nat.two_pow_pos _).ne')) (hbelow hc), hfield,
    Nat.mul_right_inj (Nat.two_pow_pos lo).ne', Spells, hfix]

/-- The row of FMSK, FEXT and FINS, whose format fixes cw and off14 (R77). -/
theorem and_row_iff_of_registerForm (hmatch : (tableRow i).1 = BitVec.ofNat 32 (2 ^ 26 * opcode i + 2 ^ 25))
    (hmask : (tableRow i).2 = BitVec.ofNat 32 (2 ^ 26 * 63 + (2 ^ 24 * 3 + 16383)))
    (hfix : FixedBits v i ↔ bits v 25 24 = 2 ∧ bits v 13 0 = 0) :
    v &&& (tableRow i).2 = (tableRow i).1 ↔ Spells v i := by
  have hfields : bits v 25 0 &&& (2 ^ 24 * 3 + 16383) = 2 ^ 24 * bits v 25 24 + bits v 13 0 := by
    rw [and_two_pow_mul_add _ _ (by decide), Nat.and_two_pow_sub_one_eq_mod _ 2, Nat.and_two_pow_sub_one_eq_mod _ 14]
    simp only [bits]
    omega
  have hoff := bits_lt v 13 0
  rw [hmask, hmatch, and_row_iff (opcode_lt i) (by decide) (by decide), hfields, Spells, hfix]
  omega

/-- To match a command's row of the opcode table is to spell it (R81). -/
theorem matches_row_iff (v : Word) (i : Instr) : v &&& (tableRow i).2 = (tableRow i).1 ↔ Spells v i := by
  cases i
  case nop | phclr | phb8 | phb16 | phb32 | ph4 | ph6 =>
    exact and_row_iff_of_field (hi := 25) (lo := 0) (c := 0) (by rw [opcode]; rfl) rfl .rfl
  case ofs | ld8 | ld16 | ld32 | st8 | st16 | st32 | ckclr =>
    exact and_row_iff_of_field (hi := 25) (lo := 16) (c := 0) (by rw [opcode]; rfl) rfl .rfl
  case fld8 | fst8 =>
    exact and_row_iff_of_field (hi := 25) (lo := 24) (c := 0) (by rw [opcode]; rfl) rfl .rfl
  case fld16 | fst16 =>
    exact and_row_iff_of_field (hi := 25) (lo := 24) (c := 1) (by rw [opcode]; rfl) rfl .rfl
  case fld32 | fst32 =>
    exact and_row_iff_of_field (hi := 25) (lo := 24) (c := 2) (by rw [opcode]; rfl) rfl .rfl
  case fmsk | fext | fins => exact and_row_iff_of_registerForm (by rw [opcode]; rfl) rfl .rfl
  case phcpy =>
    exact and_row_iff_of_field (hi := 25) (lo := 22) (c := 0) (by rw [opcode]; rfl) rfl .rfl
  case cksum | ckver | ckapp =>
    exact and_row_iff_of_field (hi := 24) (lo := 16) (c := 0) (by rw [opcode]; rfl) rfl .rfl

/-- The operands have no part in a command's row. -/
theorem tableRow_readOperands (v : Word) (i : Instr) : tableRow (i.readOperands v) = tableRow i := by cases i <;> rfl

end Sys2Proof
end

section
/-! SUPPORT. What the pseudo-instructions of R87 are made of: the host write of a one-bit field command, and the move
from WDATA to RDATA. -/

namespace Sys2Proof.Machine

/-- A command the assembler takes is one host write of its word to CMD (R85, R86). -/
theorem commandOps_of_wellFormed {i : Instr} (h : i.WellFormed) :
    commandOps i = some [.regWrite 32 0x00 (encode i)] := by
  simp [commandOps, assemble, h, wrOp, regOffset, cmdOffset]

/-- The host write of a one-bit command of format F (R87). -/
theorem commandOps_of_bitField {i : Instr} {op cw b off : Nat} (hwf : i.WellFormed) (hop : opcode i = op)
    (hbits : operandBits i = encodeF cw 1 b off) :
    commandOps i = some [.regWrite 32 0x00 (BitVec.ofNat 32 (op * 2 ^ 26 + cw * 2 ^ 24 + b * 2 ^ 14 + off))] := by
  have hsum : op * 2 ^ 26 + encodeF cw 1 b off = op * 2 ^ 26 + cw * 2 ^ 24 + b * 2 ^ 14 + off := by
    rw [encodeF]; omega
  rw [commandOps_of_wellFormed hwf, encode, hop, hbits, hsum]

/-- A field that fits its format at width 1 (R75). -/
theorem fitsField_bit {b off : Nat} (hb : b < 32) (hoff : off < 16384) : fitsField 1 b off = true := by
  simp [fitsField, hb, hoff]

/-- FEXT of the whole register moves WDATA to RDATA (R87, R125). -/
theorem exec_fext_whole {s : State} (hs : s.err = 0) : exec (.fext 32 0) s = .next { s with rdata := s.wdata } := by
  have hval : extractField s.wdata.toNat 32 0 = s.wdata.toNat := by
    rw [extractField, and_mask]; exact Nat.mod_eq_of_lt s.wdata.isLt
  rw [exec, execFext, runCommand_ok hs rfl, hval, State.setRdata, BitVec.ofNat_toNat, BitVec.setWidth_eq]

/-- A step that answers next is the first of a run. -/
theorem run_succ {s t : State} (h : step s = .next t) (k : Nat) :
    Host.Core.run core (k + 1) s = Host.Core.run core k t := by
  simp only [Host.Core.run, core, h]

end Sys2Proof.Machine
end

section
/-! ## Encoding -/

namespace Sys2Proof

/-- Settles O1: the word of a well-formed command spells it, and its fields hold the command's operands. -/
theorem decodeOfEncode : Obligations.DecodeOfEncode := fun _ => decode_encode

/-- Settles O2: a decoded command is well-formed, and no bit of its word is dropped. -/
theorem encodeOfDecode : Obligations.EncodeOfDecode := fun _ _ h =>
  ⟨(wellFormed_spells_of_decode h).1, encode_of_decode h⟩

/-- Settles O3: to match a row is to spell its command, and that fixes what the word decodes to, up to the operands. -/
theorem legalWordsMatchOneTableRow : Obligations.LegalWordsMatchOneTableRow := by
  intro v
  have hspells {j : Instr} := (matches_row_iff v j).1
  refine ⟨fun i hd => ⟨(matches_row_iff v i).2 (wellFormed_spells_of_decode hd).2, fun j hj => ?_⟩,
    fun hill j hj => ?_⟩
  · have hi : j.readOperands v = i := Decoded.command.inj ((decode_of_spells (hspells hj)).symm.trans hd)
    rw [← hi, tableRow_readOperands]
  · exact not_illegalWord_of_spells (hspells hj) (decode_illegal_iff.1 hill)

/-- Settles O4: the decoder rejects exactly the words R82 and R83 name, and the CMD port latches the rejection. -/
theorem reservedWordsRaiseIllegal : Obligations.ReservedWordsRaiseIllegal := by
  refine fun v => ⟨raisesIllegal_of_illegalWord, fun h => ?_⟩
  cases hd : decode v with
  | command i => exact ⟨i, rfl⟩
  | illegal why => exact absurd (decode_illegal_iff.1 ⟨why, hd⟩) h

/-- One line of R88: a command's word, and the word's command. -/
theorem encodes_both_ways {v : Word} {i : Instr} (hwf : i.WellFormed) (h : encode i = v) :
    encode i = v ∧ decode v = .command i :=
  ⟨h, h ▸ decode_encode hwf⟩

/-- Settles O5: each command is well-formed, so its word need be computed one way only. -/
theorem workedEncodings : Obligations.WorkedEncodings :=
  ⟨encodes_both_ways rfl rfl, encodes_both_ways rfl rfl, encodes_both_ways rfl rfl, encodes_both_ways rfl rfl,
    encodes_both_ways rfl rfl, encodes_both_ways rfl rfl, encodes_both_ways rfl rfl⟩

end Sys2Proof

namespace Sys2Proof.Machine

/-- Settles O6: the step takes the write off the queue, and the unlocked CMD port runs the command it decodes to. -/
theorem cmdWriteRunsDecodedCommand : Obligations.CmdWriteRunsDecodedCommand := by
  intro s v i rest hp hs hd
  rw [step_of_pending hp, hostStep_cmd, issueCommand_command (s := s.setPending rest) hs hd]
  rfl

/-- Settles O37: each expansion is read off the assembler, and MOVW runs as a write of WDATA and a FEXT of all of it. -/
theorem pseudoInstructionsExpand : Obligations.PseudoInstructionsExpand := by
  have hmovw : encode (.fext 32 0) = 0x2EF80000 ∧ decode 0x2EF80000 = .command (.fext 32 0) :=
    encodes_both_ways rfl rfl
  refine ⟨fun v => ⟨rfl, rfl, rfl, ?_⟩, rfl, ?_, fun s v rest hs => ?_⟩
  · rw [expand, commandOps_of_wellFormed rfl, hmovw.1]
    rfl
  · intro k b off hb hoff cw hcw
    have hfit := fitsField_bit hb hoff
    have hfst : commandOps (fstCommand k 1 b off) =
        some [.regWrite 32 0x00 (BitVec.ofNat 32 (9 * 2 ^ 26 + cw * 2 ^ 24 + b * 2 ^ 14 + off))] := by
      cases k <;> exact commandOps_of_bitField hfit rfl (hcw ▸ rfl)
    have hfld : commandOps (fldCommand k 1 b off) =
        some [.regWrite 32 0x00 (BitVec.ofNat 32 (8 * 2 ^ 26 + cw * 2 ^ 24 + b * 2 ^ 14 + off))] := by
      cases k <;> exact commandOps_of_bitField hfit rfl (hcw ▸ rfl)
    exact ⟨by rw [expand, hfst]; rfl, by rw [expand, hfst]; rfl, by rw [expand, hfld]; rfl⟩
  · have hwdata : WritesTo s 0x0C v { s with wdata := v } := (hostWritesReachRegisters s v).2.1
    have hrun := cmdWriteRunsDecodedCommand { s with pending := .regWrite 32 0 0x2EF80000 :: rest, wdata := v }
    have hmove := (hrun _ _ rest rfl hs hmovw.2).trans (exec_fext_whole (by exact hs))
    exact (run_succ (hwdata _) 1).trans (run_succ hmove 0)

end Sys2Proof.Machine
end

section
/-! SUPPORT. Every word of formats N and A, from the format's own decoder: a command, or ILLEGAL. -/

namespace Sys2Proof

variable {v : Word} {op : Nat}

/-- A word the decoder rejects raises ILLEGAL (R83, R193). -/
theorem raisesIllegal_of_decode {why : IllegalReason} (h : decode v = .illegal why) : RaisesIllegal v :=
  raisesIllegal_of_illegalWord (decode_illegal_iff.1 ⟨why, h⟩)

/-- An opcode whose words go to format N's decoder (R73). -/
theorem formatN_of_decode {i : Instr} (h : ∀ v, bits v 31 26 = op → decode v = decodeN v i) : FormatN op i :=
  fun v hop => ⟨fun hres => (h v hop).trans (if_pos hres),
    fun hres => raisesIllegal_of_decode ((h v hop).trans (if_neg hres))⟩

/-- An opcode whose words go to format A's decoder (R74). -/
theorem formatA_of_decode {mk : Nat → Instr} (h : ∀ v, bits v 31 26 = op → decode v = decodeA v mk) : FormatA op mk :=
  fun v hop => ⟨fun hres => (h v hop).trans (if_pos hres),
    fun hres => raisesIllegal_of_decode ((h v hop).trans (if_neg hres))⟩

end Sys2Proof
end

section
/-! SUPPORT. A command that makes one check, of the `n` bytes at BASE + off, and then takes an effect at that address: the
six access commands are such commands (spec 41_access.md R103 to R108), and each can only raise BOUNDS or take its
effect. -/

namespace Sys2Proof.Machine

variable {i : Instr} {off n : Nat} {effect : State → Nat → State} {s t : State}

/-- `i` checks the `n` bytes at BASE + off and then takes `effect` at that address. -/
def Accesses (i : Instr) (off n : Nat) (effect : State → Nat → State) : Prop :=
  ∀ s, exec i s =
    runCommand (encode i) [s.spanCheck (s.absAddr off) n] (fun s => effect s (s.absAddr off)) s

theorem ld8_accesses (off : Nat) : Accesses (.ld8 off) off 1 (State.load · · 1) := fun _ => rfl
theorem ld16_accesses (off : Nat) : Accesses (.ld16 off) off 2 (State.load · · 2) := fun _ => rfl
theorem ld32_accesses (off : Nat) : Accesses (.ld32 off) off 4 (State.load · · 4) := fun _ => rfl
theorem st8_accesses (off : Nat) : Accesses (.st8 off) off 1 (State.store · · 1) := fun _ => rfl
theorem st16_accesses (off : Nat) : Accesses (.st16 off) off 2 (State.store · · 2) := fun _ => rfl
theorem st32_accesses (off : Nat) : Accesses (.st32 off) off 4 (State.store · · 4) := fun _ => rfl

/-- With the span in bounds, the effect is taken. -/
theorem Accesses.exec_inBounds (h : Accesses i off n effect) (hs : s.err = 0)
    (hin : s.absAddr off + n ≤ s.bufLen.toNat) : exec i s = .next (effect s (s.absAddr off)) :=
  (h s).trans (runCommand_ok hs (firstError_cons_eq_none.2 ⟨State.spanCheck_eq_none.2 (.inr hin), rfl⟩))

/-- With the span not in bounds, BOUNDS is latched (R196, R197). -/
theorem Accesses.raises_bounds (h : Accesses i off n effect) (hs : s.err = 0) (hn : n ≠ 0)
    (hout : s.bufLen.toNat < s.absAddr off + n) : Raises i s 5 (s.boundsAddr (s.absAddr off)) := by
  have hfirst : firstError [s.spanCheck (s.absAddr off) n] = some ⟨.bounds, s.boundsAddr (s.absAddr off)⟩ := by
    rw [State.spanCheck_of_not hn hout, firstError_some]
  exact (h s).trans (runCommand_error hs hfirst)

/-- An address past 2^32 does not wrap: it is not in bounds, and the address recorded saturates (R101, R102, R196). -/
theorem Accesses.raises_past_word (h : Accesses i off n effect) (hs : s.err = 0) (hn : n ≠ 0)
    (hover : 2 ^ 32 ≤ s.absAddr off) : Raises i s 5 0xFFFFFFFF := by
  have hlen := s.bufLen.isLt
  have haddr : s.boundsAddr (s.absAddr off) = 0xFFFFFFFF := by
    rw [State.boundsAddr, Nat.min_eq_right (by omega)]
    rfl
  exact haddr ▸ h.raises_bounds hs hn (by omega)

/-- A run that raises no error had its span in bounds and took its effect. -/
theorem Accesses.of_next (h : Accesses i off n effect) (hs : s.err = 0) (hn : n ≠ 0) (hx : exec i s = .next t)
    (ht : t.err = 0) : s.absAddr off + n ≤ s.bufLen.toNat ∧ t = effect s (s.absAddr off) := by
  rcases runCommand_cases ((h s).symm.trans hx) with ⟨hlocked, -⟩ | ⟨e, -, -, rfl⟩ | ⟨-, hpassed, rfl⟩
  · exact absurd hs hlocked
  · exact absurd ht (errorCode_ne_zero e.kind)
  · exact ⟨(span_of_passed hpassed).resolve_left hn, rfl⟩

/-! ## What a load reads -/

theorem State.memRead_lt (s : State) (a : Nat) (hn : n ≤ 4) : s.memRead a n < 2 ^ 32 := by
  have hlt := beValue_lt (s.memBytes a n)
  rw [s.memBytes_length] at hlt
  exact hlt.trans_le (Nat.pow_le_pow_right (by decide) (by omega))

/-- A load of at most 4 bytes puts the number they are into RDATA, no bit lost (R103 to R105). -/
theorem Accesses.exec_load (h : Accesses i off n (State.load · · n)) (hs : s.err = 0) (hn : n ≤ 4)
    (hin : s.absAddr off + n ≤ s.bufLen.toNat) {x : Nat} (hx : s.memRead (s.absAddr off) n = x) :
    ∃ v, exec i s = .next { s with rdata := v } ∧ v.toNat = x :=
  ⟨_, h.exec_inBounds hs hin, (Nat.mod_eq_of_lt (s.memRead_lt _ hn)).trans hx⟩

/-! ## What a store writes, and what a load then reads -/

/-- Byte j of a store's span takes byte n - 1 - j of WDATA, counted from the low end (R106 to R108). -/
theorem State.byteAt_store (s : State) (a : Nat) {n j : Nat} (hj : j < n) :
    (s.store a n).byteAt (a + j) = s.wdata.extractLsb' (8 * (n - 1 - j)) 8 := by
  rw [State.store, State.byteAt_memWrite, if_pos (by omega), Nat.add_sub_cancel_left, State.dataLow_eq]
  apply BitVec.eq_of_getLsbD_eq
  intro k hk
  have hbit : 8 * (n - 1 - j) + k < 8 * n := by omega
  have hbyte : (255 : Nat).testBit k = true := (Nat.testBit_two_pow_sub_one 8 k).trans (decide_eq_true hk)
  simp only [BitVec.getLsbD_ofNat, BitVec.getLsbD_extractLsb', Nat.testBit_and, Nat.testBit_shiftRight,
    Nat.testBit_mod_two_pow, hk, hbit, hbyte, decide_true, Bool.true_and, Bool.and_true]
  rfl

theorem ofNat_mod_two_pow (v : Word) {k : Nat} (hk : k ≤ 32) :
    BitVec.ofNat 32 (v.toNat % 2 ^ k) = v &&& BitVec.ofNat 32 (mask k) := by
  have hmask : mask k < 2 ^ 32 := (mask_lt k).trans_le (Nat.pow_le_pow_right (by decide) hk)
  have hlow : v.toNat % 2 ^ k < 2 ^ 32 := (Nat.mod_le _ _).trans_lt v.isLt
  apply BitVec.eq_of_toNat_eq
  rw [BitVec.toNat_and, BitVec.toNat_ofNat, BitVec.toNat_ofNat, Nat.mod_eq_of_lt hmask, Nat.mod_eq_of_lt hlow, and_mask]

/-- A load of the bytes a store wrote reads WDATA's low bytes (R109). -/
theorem State.load_store (s : State) (a : Nat) (hn : n ≤ 4) :
    (s.store a n).load a n = { s.store a n with rdata := s.wdata &&& BitVec.ofNat 32 (mask (8 * n)) } := by
  have hread : (s.store a n).memRead a n = s.wdata.toNat % 2 ^ (8 * n) := by
    rw [State.store, State.memRead_memWrite, State.dataLow_eq, Nat.mod_mod]
  rw [State.load, hread, State.setRdata, ofNat_mod_two_pow _ (by omega)]

/-- A load with the operand of the store before it checks the same span, so it too succeeds. -/
theorem Accesses.exec_load_of_store {j : Instr} (hload : Accesses i off n (State.load · · n))
    (hstore : Accesses j off n (State.store · · n)) (hs : s.err = 0) (hn : n ≠ 0) (hn4 : n ≤ 4)
    (hx : exec j s = .next t) (ht : t.err = 0) :
    exec i t = .next { t with rdata := s.wdata &&& BitVec.ofNat 32 (mask (8 * n)) } := by
  obtain ⟨hin, rfl⟩ := hstore.of_next hs hn hx ht
  exact (hload.exec_inBounds ht hin).trans (congrArg _ (s.load_store _ hn4))

/-- At four bytes the mask keeps all of WDATA (R109). -/
theorem exec_ld32_of_st32 (hs : s.err = 0) (hx : exec (.st32 off) s = .next t) (ht : t.err = 0) :
    exec (.ld32 off) t = .next { t with rdata := s.wdata } := by
  have hall : BitVec.ofNat 32 (mask (8 * 4)) = BitVec.allOnes 32 := rfl
  rw [(ld32_accesses off).exec_load_of_store (st32_accesses off) hs (by decide) (by decide) hx ht, hall,
    BitVec.and_allOnes]

end Sys2Proof.Machine
end

section
/-! ## Control, offset composition and access -/

namespace Sys2Proof.Machine

/-- Settles O27: NOP makes no check and has no effect, and a locked engine discards it. -/
theorem nopChangesNothing : Obligations.NopChangesNothing := by
  refine ⟨formatN_of_decode fun v hop => by simp only [decode, hop], fun s => ?_⟩
  rw [exec, execNop]
  by_cases hs : s.err = 0
  · exact runCommand_ok hs rfl
  · exact runCommand_locked hs

/-- Settles O28: OFS makes no check, and RDATA keeps the low 32 bits of the sum that a load or store takes exactly. -/
theorem ofsComposesOffset : Obligations.OfsComposesOffset := by
  refine ⟨formatA_of_decode fun v hop => by simp only [decode, hop], fun s off hs => ⟨?_, fun hover => ?_⟩⟩
  · exact ⟨_, by rw [exec, execOfs, runCommand_ok hs rfl, State.setRdata, State.absAddr], BitVec.toNat_ofNat ..⟩
  · have hraises {i : Instr} {n : Nat} {effect : State → Nat → State} (h : Accesses i off n effect) (hn : n ≠ 0) :
        Raises i s 5 0xFFFFFFFF := h.raises_past_word hs hn hover
    simp only [List.forall_mem_cons]
    exact ⟨hraises (ld8_accesses off) (by decide), hraises (ld16_accesses off) (by decide),
      hraises (ld32_accesses off) (by decide), hraises (st8_accesses off) (by decide),
      hraises (st16_accesses off) (by decide), hraises (st32_accesses off) (by decide), by simp⟩

/-- Settles O29: a load reads the number its bytes are, or raises BOUNDS; LD8's address is the one byte it reads. -/
theorem loadsReadBigEndian : Obligations.LoadsReadBigEndian := by
  refine ⟨formatA_of_decode fun v hop => by simp only [decode, hop],
    formatA_of_decode fun v hop => by simp only [decode, hop],
    formatA_of_decode fun v hop => by simp only [decode, hop], ?_⟩
  rintro s off _ hs rfl
  refine ⟨fun hin => (ld8_accesses off).exec_load hs (by decide) hin (s.memRead_one _),
    fun hin => (ld16_accesses off).exec_load hs (by decide) hin (s.memRead_two _),
    fun hin => (ld32_accesses off).exec_load hs (by decide) hin (s.memRead_four _), fun hout => ?_,
    (ld16_accesses off).raises_bounds hs (by decide), (ld32_accesses off).raises_bounds hs (by decide)⟩
  have haddr : max (s.base.toNat + off) s.bufLen.toNat = s.base.toNat + off := Nat.max_eq_left (Nat.le_of_lt_succ hout)
  exact haddr ▸ (ld8_accesses off).raises_bounds hs (by decide) hout

/-- Settles O30: a store that passes its check leaves the state with its own bytes of MEM changed, and LD32 reads back
all of WDATA. -/
theorem storesWriteBigEndian : Obligations.StoresWriteBigEndian := by
  refine ⟨formatA_of_decode fun v hop => by simp only [decode, hop],
    formatA_of_decode fun v hop => by simp only [decode, hop],
    formatA_of_decode fun v hop => by simp only [decode, hop], ?_⟩
  rintro s off a hs rfl
  have hkept (n b : Nat) (hb : b < s.absAddr off ∨ s.absAddr off + n ≤ b) :
      (s.store (s.absAddr off) n).byteAt b = s.byteAt b :=
    s.byteAt_memWrite_outside _ (by omega)
  have hwritten {n j : Nat} (hj : j < n) := s.byteAt_store (s.absAddr off) hj
  refine ⟨rfl, fun hin => ⟨_, (st8_accesses off).exec_inBounds hs hin, ?_, ?_⟩,
    fun hin => ⟨_, (st16_accesses off).exec_inBounds hs hin, ?_, ?_, hkept 2⟩,
    fun hin => ⟨_, (st32_accesses off).exec_inBounds hs hin, ?_, ?_, ?_, ?_, hkept 4, ?_⟩,
    (st8_accesses off).raises_bounds hs (by decide), (st16_accesses off).raises_bounds hs (by decide),
    (st32_accesses off).raises_bounds hs (by decide)⟩
  · exact hwritten (n := 1) (j := 0) (by decide)
  · exact fun b hb => hkept 1 b (by omega)
  · exact hwritten (n := 2) (j := 0) (by decide)
  · exact hwritten (n := 2) (j := 1) (by decide)
  · exact hwritten (n := 4) (j := 0) (by decide)
  · exact hwritten (n := 4) (j := 1) (by decide)
  · exact hwritten (n := 4) (j := 2) (by decide)
  · exact hwritten (n := 4) (j := 3) (by decide)
  · exact exec_ld32_of_st32 hs ((st32_accesses off).exec_inBounds hs hin) hs

/-- Settles O31: the load's span is the store's, and the bytes there are WDATA's low ones. -/
theorem loadAfterStoreReturnsData : Obligations.LoadAfterStoreReturnsData := by
  intro s t off hs ht
  exact ⟨fun hx => (ld8_accesses off).exec_load_of_store (st8_accesses off) hs (by decide) (by decide) hx ht,
    fun hx => (ld16_accesses off).exec_load_of_store (st16_accesses off) hs (by decide) (by decide) hx ht,
    fun hx => exec_ld32_of_st32 hs hx ht⟩

end Sys2Proof.Machine
end

section
/-! SUPPORT. Every word of format F, from the format's own decoder: a command, or ILLEGAL. -/

namespace Sys2Proof

variable {op : Nat}

/-- An opcode whose words go to format F's decoder (R75, R76, R83 b). -/
theorem formatF_of_decode {mk8 mk16 mk32 : Nat → Nat → Nat → Instr}
    (h : ∀ v, bits v 31 26 = op → decode v = decodeF v mk8 mk16 mk32) : FormatF op mk8 mk16 mk32 := by
  intro v hop
  refine ⟨fun hcw => ?_, fun hcw => ?_, fun hcw => ?_,
    fun hcw => raisesIllegal_of_decode (why := .containerWidth) ?_⟩ <;>
    simp only [h v hop, decodeF, hcw]

/-- An opcode whose words go to the decoder of the register-only commands (R77, R83 b, R83 c). -/
theorem formatFReg_of_decode {mk : Nat → Nat → Instr} (h : ∀ v, bits v 31 26 = op → decode v = decodeFReg v mk) :
    FormatFReg op mk := by
  intro v hop
  have hdecode := h v hop
  unfold decodeFReg at hdecode
  refine ⟨fun hcw hoff => ?_, fun hres => ?_⟩
  · rw [hdecode, if_neg (by omega), if_pos ⟨hcw, hoff⟩]
  · by_cases hcw : bits v 25 24 = 3
    · exact raisesIllegal_of_decode (hdecode.trans (if_pos hcw))
    · exact raisesIllegal_of_decode (hdecode.trans ((if_neg hcw).trans (if_neg (by omega))))

end Sys2Proof
end

section
/-! SUPPORT. The bits of a container: MEM read as a number, and that number with a field inserted and extracted again
(spec 42_bitfield.md R120, R122, R123). -/

namespace Sys2Proof.Machine

variable {n v w sh w' sh' c j : Nat}

/-- The first byte read is the most significant one (20_memory.md R53). -/
theorem State.memRead_succ (s : State) (a n : Nat) :
    s.memRead a (n + 1) = 2 ^ (8 * n) * (s.byteAt a).toNat + s.memRead (a + 1) n := by
  rw [State.memRead, State.memRead, State.memBytes, State.memBytes, List.range'_succ, List.map_cons, beValue,
    List.length_map, List.length_range', Nat.shiftLeft_eq, Nat.mul_comm]

theorem State.memRead_lt_container (s : State) (a c : Nat) : s.memRead a c < 2 ^ (8 * c) :=
  (beValue_lt (s.memBytes a c)).trans_eq (by rw [s.memBytes_length])

/-- Bit j of the number a container holds is the container's bit j (R120). -/
theorem State.testBit_memRead (s : State) (a : Nat) (hj : j < 8 * c) :
    (s.memRead a c).testBit j = containerBit s.mem a c j := by
  induction c generalizing a with
  | zero => omega
  | succ c ih =>
    rw [State.memRead_succ, Nat.testBit_two_pow_mul_add _ (s.memRead_lt_container (a + 1) c)]
    split
    next hlow =>
      have haddr : a + 1 + (c - 1 - j / 8) = a + (c + 1 - 1 - j / 8) := by omega
      rw [ih (a + 1) hlow, containerBit, containerBit, haddr]
    next htop =>
      have haddr : a = a + (c + 1 - 1 - j / 8) := by omega
      have hbit : j - 8 * c = j % 8 := by omega
      rw [containerBit, ← haddr, hbit]
      rfl

theorem insertField_lt (x : Nat) (hfit : w + sh ≤ n) (hv : v < 2 ^ n) : insertField n v w sh x < 2 ^ n := by
  refine Nat.lt_pow_two_of_testBit _ fun j hj => ?_
  rw [testBit_insertField x j hfit hv, if_neg (by omega)]
  exact Nat.testBit_lt_two_pow (hv.trans_le (Nat.pow_le_pow_right (by decide) hj))

/-- A field reads back as the low W bits of the data put into it (R128). -/
theorem extractField_insertField_same (x : Nat) (hfit : w + sh ≤ n) (hv : v < 2 ^ n) :
    extractField (insertField n v w sh x) w sh = x % 2 ^ w := by
  apply Nat.eq_of_testBit_eq
  intro j
  rw [testBit_extractField, testBit_insertField x _ hfit hv, Nat.testBit_mod_two_pow]
  by_cases hj : j < w
  · rw [if_pos (by omega), Nat.add_sub_cancel_left]
  · simp [hj]

/-- A field with no bit in common with the one written reads as before (R128). -/
theorem extractField_insertField_disjoint (x : Nat) (hfit : w + sh ≤ n) (hv : v < 2 ^ n)
    (hdisjoint : sh + w ≤ sh' ∨ sh' + w' ≤ sh) :
    extractField (insertField n v w sh x) w' sh' = extractField v w' sh' := by
  apply Nat.eq_of_testBit_eq
  intro j
  rw [testBit_extractField, testBit_extractField, testBit_insertField x _ hfit hv]
  by_cases hj : j < w'
  · rw [if_neg (by omega)]
  · simp [hj]

/-- The container after a field store is the old one with WDATA in the field, no bit lost (R123). -/
theorem State.memRead_fieldStore (s : State) (a : Nat) (hfit : w + sh ≤ 8 * c) :
    (s.fieldStore c a w sh).memRead a c = insertField (8 * c) (s.memRead a c) w sh s.wdata.toNat := by
  rw [State.fieldStore, State.memRead_memWrite]
  exact Nat.mod_eq_of_lt (insertField_lt _ hfit (s.memRead_lt_container a c))

/-- The container's bits after a field store (R123). -/
theorem State.containerBit_fieldStore (s : State) (a : Nat) (hfit : w + sh ≤ 8 * c) (hj : j < 8 * c) :
    containerBit (s.fieldStore c a w sh).mem a c j =
      if sh ≤ j ∧ j < sh + w then s.wdata.getLsbD (j - sh) else containerBit s.mem a c j := by
  rw [← State.testBit_memRead _ _ hj, s.memRead_fieldStore a hfit,
    testBit_insertField _ _ hfit (s.memRead_lt_container a c), s.testBit_memRead a hj]
  rfl

/-- A load of the field just stored puts WDATA's low W bits into RDATA, zero-extended (R128). -/
theorem State.rdata_fieldLoad_fieldStore (s : State) (a : Nat) (hfit : w + sh ≤ 8 * c) :
    ((s.fieldStore c a w sh).fieldLoad c a w sh).rdata.toNat = s.wdata.toNat % 2 ^ w := by
  have hlt : s.wdata.toNat % 2 ^ w < 2 ^ 32 := (Nat.mod_le _ _).trans_lt s.wdata.isLt
  rw [State.fieldLoad, s.memRead_fieldStore a hfit,
    extractField_insertField_same _ hfit (s.memRead_lt_container a c), State.setRdata_rdata, BitVec.toNat_ofNat,
    Nat.mod_eq_of_lt hlt]

/-- A load of a field with no bit in common with the one stored puts into RDATA what it did before the store (R128). -/
theorem State.fieldLoad_fieldStore_disjoint (s : State) (a : Nat) (hfit : w + sh ≤ 8 * c)
    (hdisjoint : sh + w ≤ sh' ∨ sh' + w' ≤ sh) : (s.fieldStore c a w sh).fieldLoad c a w' sh' =
      { s.fieldStore c a w sh with rdata := (s.fieldLoad c a w' sh').rdata } := by
  rw [State.fieldLoad, s.memRead_fieldStore a hfit,
    extractField_insertField_disjoint _ hfit (s.memRead_lt_container a c) hdisjoint]
  rfl

/-- The bits of the word that holds a natural (R9). -/
theorem getLsbD_ofNat_word (x : Nat) (hj : j < 32) : (BitVec.ofNat 32 x).getLsbD j = x.testBit j := by
  rw [BitVec.getLsbD_ofNat, decide_eq_true hj, Bool.true_and]

end Sys2Proof.Machine
end

section
/-! SUPPORT. The commands of format F by what they check: FLD and FST check the field and then the container, FMSK, FEXT
and FINS the field alone; each can only raise FIELD, raise BOUNDS, or take its effect (spec 42_bitfield.md R121). -/

namespace Sys2Proof.Machine

variable {i : Instr} {k : Container} {w sh off : Nat} {effect : State → Nat → State} {value : State → Nat}
  {s t : State}

theorem containerBytes_ne_zero (k : Container) : containerBytes k ≠ 0 := by cases k <;> decide

theorem containerBytes_le_four (k : Container) : containerBytes k ≤ 4 := by cases k <;> decide

/-- FIELD is the first check, so a field that does not fit raises it whatever the other checks are (R194, R200). -/
theorem runCommand_field {n : Nat} {word : Word} {cs : List (Option CommandError)} {f : State → State} (hs : s.err = 0)
    (hover : n < w + sh) : runCommand word (fieldCheck w sh n :: cs) f s =
      .next { s with err := 2, errcmd := word, erraddr := 0 } := by
  have hfirst : firstError (fieldCheck w sh n :: cs) = some ⟨.field, 0⟩ := by
    rw [fieldCheck_of_lt hover, firstError_some]
  exact runCommand_error hs hfirst

/-- `i` checks the field (W, S) against the container `k`, and the container at BASE + off, and then takes `effect` at
that address. -/
def AccessesField (i : Instr) (k : Container) (w sh off : Nat) (effect : State → Nat → State) : Prop :=
  ∀ s, exec i s = runCommand (encode i) (s.containerChecks (containerBytes k) (s.absAddr off) w sh)
    (fun s => effect s (s.absAddr off)) s

theorem fld_accessesField (k : Container) (w sh off : Nat) :
    AccessesField (fldCommand k w sh off) k w sh off (State.fieldLoad · (containerBytes k) · w sh) := by
  cases k <;> exact fun _ => rfl

theorem fst_accessesField (k : Container) (w sh off : Nat) :
    AccessesField (fstCommand k w sh off) k w sh off (State.fieldStore · (containerBytes k) · w sh) := by
  cases k <;> exact fun _ => rfl

/-- With both checks passed, the effect is taken. -/
theorem AccessesField.exec_passed (h : AccessesField i k w sh off effect) (hs : s.err = 0)
    (hfit : w + sh ≤ 8 * containerBytes k) (hin : s.absAddr off + containerBytes k ≤ s.bufLen.toNat) :
    exec i s = .next (effect s (s.absAddr off)) :=
  (h s).trans (runCommand_ok hs (firstError_cons_eq_none.2 ⟨fieldCheck_eq_none.2 hfit,
    firstError_cons_eq_none.2 ⟨State.spanCheck_eq_none.2 (.inr hin), rfl⟩⟩))

theorem AccessesField.raises_field (h : AccessesField i k w sh off effect) (hs : s.err = 0)
    (hover : 8 * containerBytes k < w + sh) : Raises i s 2 0 :=
  (h s).trans (runCommand_field hs hover)

/-- With the field fitting and the container not in bounds, BOUNDS is latched (R196, R200). -/
theorem AccessesField.raises_bounds (h : AccessesField i k w sh off effect) (hs : s.err = 0)
    (hfit : w + sh ≤ 8 * containerBytes k) (hout : s.bufLen.toNat < s.absAddr off + containerBytes k) :
    Raises i s 5 (s.boundsAddr (s.absAddr off)) := by
  have hfirst : firstError (s.containerChecks (containerBytes k) (s.absAddr off) w sh) =
      some ⟨.bounds, s.boundsAddr (s.absAddr off)⟩ := by
    rw [State.containerChecks, fieldCheck_eq_none.2 hfit, State.spanCheck_of_not (containerBytes_ne_zero k) hout,
      firstError_none, firstError_some]
  exact (h s).trans (runCommand_error hs hfirst)

/-- A run that raises no error passed both checks and took its effect. -/
theorem AccessesField.of_next (h : AccessesField i k w sh off effect) (hs : s.err = 0) (hx : exec i s = .next t)
    (ht : t.err = 0) : w + sh ≤ 8 * containerBytes k ∧ s.absAddr off + containerBytes k ≤ s.bufLen.toNat ∧
      t = effect s (s.absAddr off) := by
  rcases runCommand_cases ((h s).symm.trans hx) with ⟨hlocked, -⟩ | ⟨e, -, -, rfl⟩ | ⟨-, hpassed, rfl⟩
  · exact absurd hs hlocked
  · exact absurd ht (errorCode_ne_zero e.kind)
  · exact ⟨fieldCheck_eq_none.1 (firstError_cons_eq_none.1 hpassed).1,
      (span_of_container_passed hpassed).resolve_left (containerBytes_ne_zero k), rfl⟩

/-- `i` checks the field (W, S) against the 32 bits of a register and then puts `value` into RDATA. -/
def ComputesField (i : Instr) (w sh : Nat) (value : State → Nat) : Prop :=
  ∀ s, exec i s = runCommand (encode i) [fieldCheck w sh 32] (fun s => s.setRdata (value s)) s

theorem fmsk_computesField (w sh : Nat) : ComputesField (.fmsk w sh) w sh fun _ => fieldMask w sh := fun _ => rfl
theorem fext_computesField (w sh : Nat) :
    ComputesField (.fext w sh) w sh fun s => extractField s.wdata.toNat w sh := fun _ => rfl
theorem fins_computesField (w sh : Nat) :
    ComputesField (.fins w sh) w sh fun s => insertField 32 s.rdata.toNat w sh s.wdata.toNat := fun _ => rfl

/-- With the field fitting, RDATA takes the value, bit by bit, and nothing else changes. -/
theorem ComputesField.exec_fits (h : ComputesField i w sh value) (hs : s.err = 0) (hfit : w + sh ≤ 32)
    {bit : Nat → Bool} (hbit : ∀ j, (value s).testBit j = bit j) :
    ∃ v, exec i s = .next { s with rdata := v } ∧ ∀ j < 32, v.getLsbD j = bit j :=
  ⟨_, (h s).trans (runCommand_ok hs (firstError_cons_eq_none.2 ⟨fieldCheck_eq_none.2 hfit, rfl⟩)),
    fun j hj => (getLsbD_ofNat_word _ hj).trans (hbit j)⟩

theorem ComputesField.raises_field (h : ComputesField i w sh value) (hs : s.err = 0) (hover : 32 < w + sh) :
    Raises i s 2 0 :=
  (h s).trans (runCommand_field hs hover)

end Sys2Proof.Machine
end

section
/-! SUPPORT. What BSET and BCLR expand to, and a run of those two host operations (spec 30_encoding.md R87, 42_bitfield.md
R127). -/

namespace Sys2Proof.Machine

variable {k : Container} {b off : Nat}

/-- A one-bit FST inside its container has an encoding (R85, R87). -/
theorem fstCommand_bit_wellFormed (hb : b < 8 * containerBytes k) (hoff : off < 16384) :
    (fstCommand k 1 b off).WellFormed := by
  have hc := containerBytes_le_four k
  have hfit := fitsField_bit (b := b) (by omega) hoff
  cases k <;> exact hfit

/-- BSET and BCLR write the bit's value to WDATA and then issue a one-bit FST (R87). -/
theorem expand_bset_bclr (hwf : (fstCommand k 1 b off).WellFormed) (set : Bool) :
    expand (if set then .bset k b off else .bclr k b off) =
      some [.regWrite 32 0x0C (if set then 1 else 0), .regWrite 32 0x00 (encode (fstCommand k 1 b off))] := by
  have hops := commandOps_of_wellFormed hwf
  cases set
  · rw [if_neg Bool.false_ne_true, expand, hops]; rfl
  · rw [if_pos rfl, expand, hops]; rfl

/-- A host write of WDATA and a command after it run as the command at the state with WDATA written (R70, R86). -/
theorem run_wdata_command {i : Instr} {s t : State} {v : Word} {rest : List HostOp} (hs : s.err = 0) (hwf : i.WellFormed)
    (hx : exec i { s with pending := rest, wdata := v } = .next t) :
    Host.Core.run core 2 { s with pending := [.regWrite 32 0x0C v, .regWrite 32 0x00 (encode i)] ++ rest } = .next t := by
  have hwrite : WritesTo s 0x0C v { s with wdata := v } := (hostWritesReachRegisters s v).2.1
  have hissue := cmdWriteRunsDecodedCommand { s with pending := .regWrite 32 0 (encode i) :: rest, wdata := v }
    _ _ rest rfl hs (decode_encode hwf)
  exact (run_succ (hwrite _) 1).trans (run_succ (hissue.trans hx) 0)

end Sys2Proof.Machine
end

section
/-! ## Bit fields -/

namespace Sys2Proof.Machine

/-- Settles O32: RDATA takes the container's number shifted and masked, whose bits are the field's. -/
theorem fldReadsField : Obligations.FldReadsField := by
  refine ⟨formatF_of_decode fun v hop => by simp only [decode, hop], ?_⟩
  rintro k s w sh off _ hs rfl
  have hfld := fld_accessesField k w sh off
  refine ⟨fun hfit hin => ⟨_, hfld.exec_passed hs hfit hin, fun j hj => ?_⟩, hfld.raises_field hs,
    hfld.raises_bounds hs⟩
  rw [getLsbD_ofNat_word _ hj, testBit_extractField]
  by_cases hjw : j < w
  · rw [s.testBit_memRead _ (by omega)]
  · simp [hjw]

/-- Settles O33: the store writes back the container's own number with the field's bits replaced. -/
theorem fstWritesOnlyItsField : Obligations.FstWritesOnlyItsField := by
  refine ⟨formatF_of_decode fun v hop => by simp only [decode, hop], ?_⟩
  rintro k s w sh off _ hs rfl
  have hfst := fst_accessesField k w sh off
  exact ⟨fun hfit hin => ⟨_, hfst.exec_passed hs hfit hin, fun j hj => s.containerBit_fieldStore _ hfit hj,
      fun b hb => s.byteAt_memWrite_outside _ (by omega)⟩,
    hfst.raises_field hs, hfst.raises_bounds hs⟩

/-- Settles O34: the three commands compute on 32 bits what the field operations do bit by bit. -/
theorem registerFieldCommands : Obligations.RegisterFieldCommands := by
  refine ⟨formatFReg_of_decode fun v hop => by simp only [decode, hop],
    formatFReg_of_decode fun v hop => by simp only [decode, hop],
    formatFReg_of_decode fun v hop => by simp only [decode, hop], fun s w sh hs => ⟨fun hfit => ⟨?_, ?_, ?_⟩, ?_⟩⟩
  · exact (fmsk_computesField w sh).exec_fits hs hfit (testBit_fieldMask w sh)
  · exact (fext_computesField w sh).exec_fits hs hfit (testBit_extractField _ w sh)
  · exact (fins_computesField w sh).exec_fits hs hfit fun j => testBit_insertField _ j hfit s.rdata.isLt
  · exact fun hover => ⟨(fmsk_computesField w sh).raises_field hs hover, (fext_computesField w sh).raises_field hs hover,
      (fins_computesField w sh).raises_field hs hover⟩

/-- Settles O35: a load after the store checks the same container, and reads a field of the number the store left. -/
theorem fieldRoundTrip : Obligations.FieldRoundTrip := by
  intro k s t w sh off hs hx ht
  obtain ⟨hfit, hin, rfl⟩ := (fst_accessesField k w sh off).of_next hs hx ht
  refine ⟨⟨_, (fld_accessesField k w sh off).exec_passed ht hfit hin, s.rdata_fieldLoad_fieldStore _ hfit⟩,
    fun w' sh' hfit' hdisjoint => ?_⟩
  have hfld := fld_accessesField k w' sh' off
  exact ⟨_, hfld.exec_passed hs hfit' hin, (hfld.exec_passed ht hfit' hin).trans
    (congrArg _ (s.fieldLoad_fieldStore_disjoint _ hfit hdisjoint))⟩

/-- Settles O36: the run is that of a one-bit FST, whose data is bit 0 of the WDATA just written. -/
theorem bitSetAndClearChangeOneBit : Obligations.BitSetAndClearChangeOneBit := by
  intro k b off a s rest hs ha hb hoff hin set
  have hwf := fstCommand_bit_wellFormed hb hoff
  obtain ⟨m, hexec, hbits, hframe⟩ := (fstWritesOnlyItsField.2 k
    { s with pending := rest, wdata := if set then 1 else 0 } 1 b off a hs ha).1 (by omega) hin
  refine ⟨_, m, expand_bset_bclr hwf set, run_wdata_command hs hwf hexec, fun j hj => ?_, hframe⟩
  rw [hbits j hj]
  by_cases hjb : j = b
  · have hvalue : (if set then 1 else 0 : Word).getLsbD 0 = set := by cases set <;> decide
    rw [if_pos (by omega), if_pos hjb, hjb, Nat.sub_self, hvalue]
  · rw [if_neg (by omega), if_neg hjb]

end Sys2Proof.Machine
end

section
/-! SUPPORT. Every word of format P, and the commands that append to the pseudo-header: each checks first that its bytes
fit the 40 of PHBUF (spec 43_pseudo_header.md R141 to R144). -/

namespace Sys2Proof

/-- An opcode whose words go to format P's decoder (R79). -/
theorem formatP_of_decode {op : Nat} {mk : Nat → Nat → Instr} (h : ∀ v, bits v 31 26 = op → decode v = decodeP v mk) :
    FormatP op mk :=
  fun v hop => ⟨fun hres => (h v hop).trans (if_pos hres),
    fun hres => raisesIllegal_of_decode ((h v hop).trans (if_neg hres))⟩

end Sys2Proof

namespace Sys2Proof.Machine

variable {i : Instr} {n off : Nat} {later : State → List (Option CommandError)} {data : State → List Byte} {s : State}

/-- `i` checks the room for `n` bytes, makes its `later` checks, and then appends the `n` bytes of `data`. -/
structure Appends (i : Instr) (n : Nat) (later : State → List (Option CommandError)) (data : State → List Byte) :
    Prop where
  exec_eq : ∀ s, exec i s = runCommand (encode i) (s.roomCheck n :: later s) (fun s => s.phAppend (data s)) s
  length_data : ∀ s, (data s).length = n

theorem phb8_appends : Appends .phb8 1 (fun _ => []) fun s => beBytes 1 (s.dataLow 1) :=
  ⟨fun _ => rfl, fun _ => beBytes_length _ _⟩
theorem phb16_appends : Appends .phb16 2 (fun _ => []) fun s => beBytes 2 (s.dataLow 2) :=
  ⟨fun _ => rfl, fun _ => beBytes_length _ _⟩
theorem phb32_appends : Appends .phb32 4 (fun _ => []) fun s => beBytes 4 (s.dataLow 4) :=
  ⟨fun _ => rfl, fun _ => beBytes_length _ _⟩
theorem phcpy_appends (n off : Nat) :
    Appends (.phcpy n off) n (fun s => [s.spanCheck (s.absAddr off) n]) fun s => s.memBytes (s.absAddr off) n :=
  ⟨fun _ => rfl, fun s => s.memBytes_length _ _⟩

/-- With every check passed, the bytes stand at PH_LEN, PH_LEN grows by their number, and nothing else changes. -/
theorem Appends.exec_fits (h : Appends i n later data) (hs : s.err = 0) (hroom : s.phLen + n ≤ 40)
    (hlater : firstError (later s) = none) {byte : Nat → Byte} (hbyte : ∀ j < n, (data s).getD j 0 = byte j) :
    ∃ t, exec i s = .next t ∧ t = { s with phbuf := t.phbuf, phLen := s.phLen + n } ∧
      ∀ j < 40, t.phByte j = if s.phLen ≤ j ∧ j < s.phLen + n then byte (j - s.phLen) else s.phByte j := by
  have hlen := h.length_data s
  refine ⟨s.phAppend (data s), ?_, hlen ▸ rfl, fun j hj => ?_⟩
  · exact (h.exec_eq s).trans
      (runCommand_ok hs (firstError_cons_eq_none.2 ⟨State.roomCheck_eq_none.2 hroom, hlater⟩))
  · rw [State.phByte_phAppend, hlen]
    by_cases hnew : s.phLen ≤ j ∧ j < s.phLen + n
    · rw [if_pos ⟨hnew.1, hnew.2, hj⟩, if_pos hnew, hbyte _ (by omega)]
    · rw [if_neg fun hnew' => hnew ⟨hnew'.1, hnew'.2.1⟩, if_neg hnew]

/-- PHOVF comes before the later checks, so bytes that do not fit raise it whatever those are (R199, R200). -/
theorem Appends.raises_phovf (h : Appends i n later data) (hs : s.err = 0) (hover : 40 < s.phLen + n) :
    Raises i s 4 0 := by
  have hfirst : firstError (s.roomCheck n :: later s) = some ⟨.phovf, 0⟩ := by
    rw [State.roomCheck_of_lt hover, firstError_some]
  exact (h.exec_eq s).trans (runCommand_error hs hfirst)

/-- With room and the source not in bounds, PHCPY latches BOUNDS (R144, R196). -/
theorem phcpy_raises_bounds (hs : s.err = 0) (hroom : s.phLen + n ≤ 40) (hn : n ≠ 0)
    (hout : s.bufLen.toNat < s.absAddr off + n) : Raises (.phcpy n off) s 5 (s.boundsAddr (s.absAddr off)) := by
  have hfirst : firstError [s.roomCheck n, s.spanCheck (s.absAddr off) n] =
      some ⟨.bounds, s.boundsAddr (s.absAddr off)⟩ := by
    rw [State.roomCheck_eq_none.2 hroom, State.spanCheck_of_not hn hout, firstError_none, firstError_some]
  exact ((phcpy_appends n off).exec_eq s).trans (runCommand_error hs hfirst)

/-- The bytes an append takes from WDATA are those a store of the same width writes (R84). -/
theorem State.beBytes_dataLow_getD (s : State) {n j : Nat} (hj : j < n) :
    (beBytes n (s.dataLow n)).getD j 0 = s.wdata.extractLsb' (8 * (n - 1 - j)) 8 := by
  rw [← s.byteAt_store 0 hj, State.store, State.byteAt_memWrite, if_pos (by omega), Nat.zero_add, Nat.sub_zero,
    beBytes_getD _ _ _ hj]

end Sys2Proof.Machine
end

section
/-! SUPPORT. The commands that build a whole pseudo-header from the IP header at BASE, and the bytes they build, one by
one (spec 43_pseudo_header.md R146, R147). -/

namespace Sys2Proof.Machine

theorem ph4_accesses : Accesses .ph4 0 20 fun s b => s.phReplace (s.ipv4PseudoHeader b) := fun _ => rfl
theorem ph6_accesses : Accesses .ph6 0 40 fun s b => s.phReplace (s.ipv6PseudoHeader b) := fun _ => rfl

/-- Bytes that follow one another in MEM are one span. -/
theorem State.memBytes_append (s : State) (a m n : Nat) :
    s.memBytes a m ++ s.memBytes (a + m) n = s.memBytes a (m + n) := by
  rw [State.memBytes, State.memBytes, ← List.map_append, List.range'_append_1, State.memBytes]

/-- The first bytes of a list that begins with a span of MEM. -/
theorem State.memBytes_append_getD (s : State) (a : Nat) (bs : List Byte) {n j : Nat} (hj : j < n) :
    (s.memBytes a n ++ bs).getD j 0 = s.byteAt (a + j) := by
  rw [List.getD_append _ _ _ _ (by rwa [s.memBytes_length]), s.memBytes_getD a n j hj]

@[simp] theorem State.ipv4PseudoHeader_length (s : State) (b : Nat) : (s.ipv4PseudoHeader b).length = 12 := rfl

@[simp] theorem State.ipv6PseudoHeader_length (s : State) (b : Nat) : (s.ipv6PseudoHeader b).length = 36 := rfl

/-- A pseudo-header that fits PHBUF can be read back byte by byte. -/
theorem State.phByte_phReplace_of_lt (s : State) {bs : List Byte} {j : Nat} (hj : j < bs.length)
    (hfit : bs.length ≤ 40) : (s.phReplace bs).phByte j = bs.getD j 0 := by
  rw [State.phByte_phReplace, if_pos ⟨hj, hj.trans_le hfit⟩]

/-- Past a pseudo-header's length PHBUF is zeroed (R36). -/
theorem State.phByte_phReplace_of_ge (s : State) {bs : List Byte} {j : Nat} (hj : bs.length ≤ j) :
    (s.phReplace bs).phByte j = 0 := by
  rw [State.phByte_phReplace, if_neg (by omega)]

/-- The two addresses are neighbours in an IPv4 header (R145). -/
theorem State.ipv4PseudoHeader_address (s : State) (b : Nat) {j : Nat} (hj : j < 8) :
    (s.ipv4PseudoHeader b).getD j 0 = s.byteAt (b + 12 + j) := by
  rw [State.ipv4PseudoHeader, s.memBytes_append (b + 12) 4 4, List.append_assoc, s.memBytes_append_getD _ _ hj]

/-- The two addresses are neighbours in an IPv6 header (R148). -/
theorem State.ipv6PseudoHeader_address (s : State) (b : Nat) {j : Nat} (hj : j < 32) :
    (s.ipv6PseudoHeader b).getD j 0 = s.byteAt (b + 8 + j) := by
  rw [State.ipv6PseudoHeader, s.memBytes_append (b + 8) 16 16, List.append_assoc, s.memBytes_append_getD _ _ hj]

/-- The upper-layer length and the header length add up to the total length modulo 2^16 (R146). -/
theorem State.ipv4UpperLength_add (s : State) (b : Nat) :
    (s.ipv4UpperLength b + 4 * ((s.byteAt b).toNat % 16)) % 2 ^ 16 =
      (s.byteAt (b + 2)).toNat * 256 + (s.byteAt (b + 3)).toNat := by
  have hhigh := (s.byteAt (b + 2)).isLt
  have hlow := (s.byteAt (b + 3)).isLt
  have hihl : (s.byteAt b).toNat &&& 0x0F = (s.byteAt b).toNat % 16 := Nat.and_two_pow_sub_one_eq_mod _ 4
  have htotal : s.memRead (b + 2) 2 = (s.byteAt (b + 2)).toNat * 256 + (s.byteAt (b + 3)).toNat := s.memRead_two _
  rw [State.ipv4UpperLength, State.ipv4HeaderLength, hihl, htotal]
  omega

theorem beValue_pair (x y : Byte) : beValue [x, y] = x.toNat * 256 + y.toNat := by
  simp [beValue, Nat.shiftLeft_eq]

/-- The last two bytes of the IPv4 pseudo-header are the upper-layer length, big-endian (R146). -/
theorem State.ipv4PseudoHeader_lengthField (s : State) (b : Nat) :
    ((s.ipv4PseudoHeader b).getD 10 0).toNat * 256 + ((s.ipv4PseudoHeader b).getD 11 0).toNat =
      s.ipv4UpperLength b := by
  have hlt : s.ipv4UpperLength b < 2 ^ 16 := Nat.mod_lt _ (by decide)
  rw [← beValue_pair]
  exact (beValue_beBytes 2 _).trans (Nat.mod_eq_of_lt hlt)

end Sys2Proof.Machine
end

section
/-! SUPPORT. The word sum of a stream: it is the sum of R161's words, and it splits after an even number of bytes. -/

namespace Sys2Proof.Machine

theorem streamWords_cons_cons (b c : Byte) (bs : List Byte) :
    streamWords (b :: c :: bs) = (b.toNat * 256 + c.toNat) :: streamWords bs := by
  have hlen : ((b :: c :: bs).length + 1) / 2 = (bs.length + 1) / 2 + 1 := by simp only [List.length_cons]; omega
  rw [streamWords, hlen, List.range_succ_eq_map, List.map_cons, List.map_map]
  rfl

/-- The model's word sum is the exact sum of the words of R161. -/
theorem wordSum_eq_sum_streamWords (l : List Byte) : wordSum l = (streamWords l).sum := by
  induction l using wordSum.induct with
  | case1 => rfl
  | case2 b => simp [wordSum_single, streamWords, streamWord]
  | case3 b c bs ih => rw [wordSum_cons_cons, streamWords_cons_cons, List.sum_cons, ih]

/-- After an even number of bytes a new word begins (R161). -/
theorem wordSum_append {xs : List Byte} (ys : List Byte) (heven : xs.length % 2 = 0) :
    wordSum (xs ++ ys) = wordSum xs + wordSum ys := by
  induction xs using wordSum.induct with
  | case1 => rw [List.nil_append, wordSum_nil, Nat.zero_add]
  | case2 b => cases heven
  | case3 b c bs ih =>
    have hrest : bs.length % 2 = 0 := by simp only [List.length_cons] at heven; omega
    rw [List.cons_append, List.cons_append, wordSum_cons_cons, wordSum_cons_cons, ih hrest, ← Nat.add_assoc]

end Sys2Proof.Machine
end

section
/-! SUPPORT. The checksum commands by what they sum: CKSUM, CKVER and CKAPP make the same checks and put the same two
results into RDATA and CK_SUM (spec 44_checksum.md R160, R163, R164). -/

namespace Sys2Proof.Machine

variable {i : Instr} {p : Bool} {fld : Nat} {effect : State → State} {s s' t : State}

/-- `i` makes the checks of R160 and then takes `effect`, which leaves C in RDATA and sum16 in CK_SUM. -/
structure Sums (i : Instr) (p : Bool) (fld : Nat) (effect : State → State) : Prop where
  exec_eq : ∀ s, exec i s = runCommand (encode i) (s.checksumChecks fld) effect s
  err_eq : ∀ s, (effect s).err = s.err
  rdata_eq : ∀ s, (effect s).rdata = BitVec.ofNat 32 (compl 16 (s.sum16 p fld))
  ckSum_eq : ∀ s, (effect s).ckSum = BitVec.ofNat 16 (s.sum16 p fld)

theorem cksum_sums (p : Bool) (fld : Nat) : Sums (.cksum p fld) p fld (State.checksumResults · p fld) :=
  ⟨fun _ => rfl, fun _ => rfl, fun _ => rfl, fun _ => rfl⟩
theorem ckver_sums (p : Bool) (fld : Nat) : Sums (.ckver p fld) p fld fun s =>
    (s.checksumResults p fld).setVok (verifyFlag (s.memRead (s.absAddr fld) 2) (s.checksum p fld)) :=
  ⟨fun _ => rfl, fun _ => rfl, fun _ => rfl, fun _ => rfl⟩
theorem ckapp_sums (p : Bool) (fld : Nat) : Sums (.ckapp p fld) p fld fun s =>
    (s.checksumResults p fld).memWrite (s.absAddr fld) 2 (s.checksum p fld) :=
  ⟨fun _ => rfl, fun _ => rfl, fun _ => rfl, fun _ => rfl⟩

/-- A checksum command that succeeds at one state succeeds, with the same results, at every unlocked state with the same
checks and the same sum. -/
theorem Sums.next_of_sum16_eq (h : Sums i p fld effect) (hs : s.err = 0) (hs' : s'.err = 0)
    (hchecks : s'.checksumChecks fld = s.checksumChecks fld) (hsum : s'.sum16 p fld = s.sum16 p fld)
    (hx : exec i s = .next t) (ht : t.err = 0) :
    ∃ t', exec i s' = .next t' ∧ t'.err = 0 ∧ t'.rdata = t.rdata ∧ t'.ckSum = t.ckSum := by
  rcases runCommand_cases ((h.exec_eq s).symm.trans hx) with ⟨hlocked, -⟩ | ⟨e, -, -, rfl⟩ | ⟨-, hpassed, rfl⟩
  · exact absurd hs hlocked
  · exact absurd ht (errorCode_ne_zero e.kind)
  · refine ⟨effect s', (h.exec_eq s').trans (runCommand_ok hs' (hchecks ▸ hpassed)), (h.err_eq s').trans hs', ?_, ?_⟩
    · rw [h.rdata_eq, h.rdata_eq, hsum]
    · rw [h.ckSum_eq, h.ckSum_eq, hsum]

/-- The checks of R160 read BASE, CK_END and BUF_LEN alone. -/
theorem checksumChecks_congr (fld : Nat) (hlen : s'.bufLen = s.bufLen) (hbase : s'.base = s.base)
    (hend : s'.ckEnd = s.ckEnd) : s'.checksumChecks fld = s.checksumChecks fld := by
  have hreads : s'.checksumChecks fld =
      State.checksumChecks { s with bufLen := s'.bufLen, base := s'.base, ckEnd := s'.ckEnd } fld := rfl
  rw [hreads, hlen, hbase, hend]

/-- The main range reads MEM, BASE and CK_END alone (R161, R162). -/
theorem mainRange_congr (f : Nat) (hmem : s'.mem = s.mem) (hbase : s'.base = s.base) (hend : s'.ckEnd = s.ckEnd) :
    s'.mainRange f = s.mainRange f := by
  have hreads : s'.mainRange f = State.mainRange { s with mem := s'.mem, base := s'.base, ckEnd := s'.ckEnd } f := rfl
  rw [hreads, hmem, hbase, hend]

/-- With P = 1 and an even PH_LEN, the sum is Fold of the pseudo-header's sum plus the main range's (R161). -/
theorem State.sum16_of_pseudoHeader (heven : s.pseudoHeader.length % 2 = 0) :
    s.sum16 true fld = fold (wordSum s.pseudoHeader + wordSum (s.mainRange (s.absAddr fld))) := by
  rw [State.sum16, State.stream, if_pos rfl, wordSum_append _ heven]

end Sys2Proof.Machine
end

section
/-! SUPPORT. The three layouts of the IPv6 pseudo-header and their common word sum (spec 43_pseudo_header.md R149). -/

namespace Sys2Proof.Machine

variable {src dst layout : List Byte} {nh lh ll : Byte}

/-- R149's layouts of 36, 38 and 40 bytes. -/
def ipv6Layouts (src dst : List Byte) (nh lh ll : Byte) : List (List Byte) :=
  [src ++ dst ++ [0, nh, lh, ll], src ++ dst ++ [0, 0, 0, nh, lh, ll], src ++ dst ++ [0, 0, lh, ll, 0, 0, 0, nh]]

/-- In every layout the next header is the low byte of a word of its own, and the length is a word of its own. -/
theorem ipv6Layouts_tail (h : layout ∈ ipv6Layouts src dst nh lh ll) :
    ∃ tail, layout = src ++ dst ++ tail ∧ tail.length % 2 = 0 ∧
      wordSum tail = nh.toNat + (lh.toNat * 256 + ll.toNat) := by
  simp only [ipv6Layouts, List.mem_cons, List.not_mem_nil, or_false] at h
  rcases h with rfl | rfl | rfl
  · exact ⟨_, rfl, by simp, by simp [wordSum_cons_cons]⟩
  · exact ⟨_, rfl, by simp, by simp [wordSum_cons_cons]⟩
  · exact ⟨_, rfl, by simp, by simp [wordSum_cons_cons, Nat.add_comm]⟩

/-- So every layout has an even length and the one word sum. -/
theorem ipv6Layouts_wordSum (hsrc : src.length = 16) (hdst : dst.length = 16)
    (h : layout ∈ ipv6Layouts src dst nh lh ll) : layout.length % 2 = 0 ∧
      wordSum layout = wordSum src + wordSum dst + nh.toNat + (lh.toNat * 256 + ll.toNat) := by
  obtain ⟨tail, rfl, heven, hsum⟩ := ipv6Layouts_tail h
  have haddresses : (src ++ dst).length = 32 := by rw [List.length_append, hsrc, hdst]
  constructor
  · rw [List.length_append]; omega
  · rw [wordSum_append _ (by omega), wordSum_append _ (by omega), hsum, ← Nat.add_assoc]

end Sys2Proof.Machine
end

section
/-! ## The pseudo-header -/

namespace Sys2Proof.Machine

/-- Settles O38: PHCLR makes no check and replaces the pseudo-header by the empty one. -/
theorem phclrEmptiesPseudoHeader : Obligations.PhclrEmptiesPseudoHeader := by
  refine ⟨formatN_of_decode fun v hop => by simp only [decode, hop], fun s hs => ?_⟩
  exact ⟨s.phReplace [], by rw [exec, execPhclr, runCommand_ok hs rfl], rfl,
    fun j _ => s.phByte_phReplace_of_ge (Nat.zero_le j)⟩

/-- Settles O39: the three commands append the big-endian bytes of WDATA's low part, with room as their only check. -/
theorem appendsPutWdataInPhbuf : Obligations.AppendsPutWdataInPhbuf := by
  refine ⟨formatN_of_decode fun v hop => by simp only [decode, hop],
    formatN_of_decode fun v hop => by simp only [decode, hop],
    formatN_of_decode fun v hop => by simp only [decode, hop], fun s hs => ?_⟩
  have happend {i : Instr} {k : Nat} (h : Appends i k (fun _ => []) fun s => beBytes k (s.dataLow k)) :=
    And.intro (fun hroom => h.exec_fits hs hroom firstError_nil fun j hj => s.beBytes_dataLow_getD hj)
      (h.raises_phovf hs)
  simp only [List.forall_mem_cons]
  exact ⟨happend phb8_appends, happend phb16_appends, happend phb32_appends, by simp⟩

/-- Settles O40: PHCPY appends a span of MEM, with room checked before the span. -/
theorem phcpyCopiesBytes : Obligations.PhcpyCopiesBytes := by
  refine ⟨formatP_of_decode fun v hop => by simp only [decode, hop], ?_⟩
  rintro s n off _ hs rfl
  have hphcpy := phcpy_appends n off
  refine ⟨fun hroom hin => ?_, hphcpy.raises_phovf hs, fun hroom => phcpy_raises_bounds hs hroom⟩
  exact hphcpy.exec_fits hs hroom (firstError_cons_eq_none.2 ⟨State.spanCheck_eq_none.2 hin, rfl⟩)
    fun j => s.memBytes_getD (s.absAddr off) n j

/-- Settles O41: PH4 checks the fixed header and replaces the pseudo-header by the 12 bytes made of it. -/
theorem ph4BuildsIpv4PseudoHeader : Obligations.Ph4BuildsIpv4PseudoHeader := by
  refine ⟨formatN_of_decode fun v hop => by simp only [decode, hop], ?_⟩
  rintro s b hs rfl
  refine ⟨fun hin => ⟨_, ph4_accesses.exec_inBounds hs hin, rfl, ?_⟩, ph4_accesses.raises_bounds hs (by decide)⟩
  have hbyte {j : Nat} (hj : j < 12) := s.phByte_phReplace_of_lt (bs := s.ipv4PseudoHeader s.base.toNat) hj (by simp)
  refine ⟨fun j hj => (hbyte (by omega)).trans (s.ipv4PseudoHeader_address _ hj), hbyte (by decide),
    hbyte (by decide), ?_, fun j hj _ => s.phByte_phReplace_of_ge hj⟩
  rw [← s.ipv4UpperLength_add, ← s.ipv4PseudoHeader_lengthField, ← hbyte (by decide), ← hbyte (by decide)]
  rfl

/-- Settles O42: PH6 checks the fixed header and replaces the pseudo-header by the 36 bytes made of it. -/
theorem ph6BuildsIpv6PseudoHeader : Obligations.Ph6BuildsIpv6PseudoHeader := by
  refine ⟨formatN_of_decode fun v hop => by simp only [decode, hop], ?_⟩
  rintro s b hs rfl
  refine ⟨fun hin => ⟨_, ph6_accesses.exec_inBounds hs hin, rfl, ?_⟩, ph6_accesses.raises_bounds hs (by decide)⟩
  have hbyte {j : Nat} (hj : j < 36) := s.phByte_phReplace_of_lt (bs := s.ipv6PseudoHeader s.base.toNat) hj (by simp)
  exact ⟨fun j hj => (hbyte (by omega)).trans (s.ipv6PseudoHeader_address _ hj), hbyte (by decide), hbyte (by decide),
    hbyte (by decide), hbyte (by decide), fun j hj _ => s.phByte_phReplace_of_ge hj⟩

/-- Settles O43: the layouts have even lengths and one word sum, so streams that begin with them have one sum. -/
theorem pseudoHeaderLayoutsAgree : Obligations.PseudoHeaderLayoutsAgree := by
  intro src dst nh lh ll hsrc hdst layout hlayout
  obtain ⟨heven, hlsum⟩ := ipv6Layouts_wordSum hsrc hdst hlayout
  simp only [← wordSum_eq_sum_streamWords]
  refine ⟨hlsum, fun main => wordSum_append main heven, ?_⟩
  intro s s' t fld hs hs' hmem hlen hbase hend hph hph'
  obtain ⟨heven36, hsum36⟩ := ipv6Layouts_wordSum hsrc hdst
    (List.mem_cons_self : src ++ dst ++ [0, nh, lh, ll] ∈ ipv6Layouts src dst nh lh ll)
  have hchecks := checksumChecks_congr fld hlen hbase hend
  have hsum : s'.sum16 true fld = s.sum16 true fld := by
    have haddr : s'.absAddr fld = s.absAddr fld := by rw [State.absAddr, State.absAddr, hbase]
    rw [State.sum16_of_pseudoHeader (hph' ▸ heven), State.sum16_of_pseudoHeader (hph ▸ heven36), hph, hph', hlsum,
      hsum36, haddr, mainRange_congr _ hmem hbase hend]
  have hagree {i : Instr} {effect : State → State} (h : Sums i true fld effect) (hx : exec i s = .next t)
      (ht : t.err = 0) := h.next_of_sum16_eq hs hs' hchecks hsum hx ht
  simp only [List.forall_mem_cons]
  exact ⟨hagree (cksum_sums true fld), hagree (ckver_sums true fld), hagree (ckapp_sums true fld), by simp⟩

end Sys2Proof.Machine
end

section
/-! SUPPORT. Fold as the one number below 2^16 that R163 describes: whatever meets the description is Fold of the sum,
however it was computed (spec 44_checksum.md R163, R165). -/

namespace Sys2Proof.Machine

variable {x y m n k : Nat}

/-- `n` is congruent to the exact sum `x` modulo 0xFFFF, is at most 0xFFFF, and is 0 only for the sum 0 (R163). -/
def IsFoldOf (x n : Nat) : Prop := n ≤ 0xFFFF ∧ n % 0xFFFF = x % 0xFFFF ∧ (n = 0 ↔ x = 0)

theorem IsFoldOf.unique (hm : IsFoldOf x m) (hn : IsFoldOf x n) : m = n := by
  unfold IsFoldOf at hm hn
  omega

theorem isFoldOf_self (hx : x ≤ 0xFFFF) : IsFoldOf x x := ⟨hx, rfl, .rfl⟩

/-- Part of a sum may be folded before the rest is added. -/
theorem IsFoldOf.of_add (hm : IsFoldOf x m) (hn : IsFoldOf (m + y) n) : IsFoldOf (x + y) n := by
  unfold IsFoldOf at *
  omega

/-- A round keeps the residue and the sign of a sum, and lowers one that does not fit 16 bits. -/
theorem foldRound_keeps (x : Nat) :
    ((x &&& 0xFFFF) + (x >>> 16)) % 0xFFFF = x % 0xFFFF ∧ ((x &&& 0xFFFF) + (x >>> 16) = 0 ↔ x = 0) ∧
      (0xFFFF < x → (x &&& 0xFFFF) + (x >>> 16) < x) := by
  rw [foldRound_eq]
  omega

/-- After any number of rounds that brings the sum down to 16 bits it is folded. -/
theorem isFoldOf_foldRounds (h : foldRounds k x ≤ 0xFFFF) : IsFoldOf x (foldRounds k x) := by
  induction k generalizing x with
  | zero => exact isFoldOf_self h
  | succ k ih =>
    by_cases hx : x ≤ 0xFFFF
    · rw [foldRounds_of_le hx]
      exact isFoldOf_self hx
    · rw [foldRounds_of_gt (by omega)] at h ⊢
      obtain ⟨hmod, hzero, -⟩ := foldRound_keeps x
      obtain ⟨hle, hmod', hzero'⟩ := ih h
      exact ⟨hle, hmod'.trans hmod, hzero'.trans hzero⟩

/-- Each round lowers a sum that does not fit, so as many rounds as the excess are enough. -/
theorem foldRounds_le (h : x ≤ 0xFFFF + k) : foldRounds k x ≤ 0xFFFF := by
  induction k generalizing x with
  | zero => exact h
  | succ k ih =>
    by_cases hx : x ≤ 0xFFFF
    · rwa [foldRounds_of_le hx]
    · rw [foldRounds_of_gt (by omega)]
      have hlower := (foldRound_keeps x).2.2 (by omega)
      exact ih (by omega)

theorem isFoldOf_fold (x : Nat) : IsFoldOf x (fold x) := isFoldOf_foldRounds (foldRounds_le (by omega))

theorem fold_le (x : Nat) : fold x ≤ 0xFFFF := (isFoldOf_fold x).1

theorem fold_of_le (hx : x ≤ 0xFFFF) : fold x = x := foldRounds_of_le hx x

/-- Sums that fold to one value are congruent modulo 0xFFFF. -/
theorem mod_eq_of_fold_eq (h : fold x = fold y) : x % 0xFFFF = y % 0xFFFF := by
  rw [← (isFoldOf_fold x).2.1, h, (isFoldOf_fold y).2.1]

/-- A round does not change what a sum folds to (R163). -/
theorem fold_eq_fold_round (x : Nat) : fold x = fold ((x &&& 0xFFFF) + (x >>> 16)) := by
  obtain ⟨hmod, hzero, -⟩ := foldRound_keeps x
  obtain ⟨hle, hmod', hzero'⟩ := isFoldOf_fold ((x &&& 0xFFFF) + (x >>> 16))
  exact (isFoldOf_fold x).unique ⟨hle, hmod'.trans hmod, hzero'.trans hzero⟩

/-- One round takes a 32-bit sum below 2^17, and a second one below 2^16 (R163). -/
theorem foldRounds_two (hx : x < 2 ^ 32) : foldRounds 2 x = fold x := by
  refine (isFoldOf_foldRounds ?_).unique (isFoldOf_fold x)
  by_cases hfits : x ≤ 0xFFFF
  · rwa [foldRounds_of_le hfits]
  · rw [foldRounds_of_gt (by omega), foldRound_eq]
    by_cases hone : x % 2 ^ 16 + x / 2 ^ 16 ≤ 0xFFFF
    · rwa [foldRounds_of_le hone]
    · rw [foldRounds_of_gt (by omega), foldRound_eq, foldRounds]
      omega

/-- Folding the parts of a sum as they are added gives Fold of the whole. -/
theorem fold_fold_add (x y : Nat) : fold (fold x + y) = fold (x + y) :=
  ((isFoldOf_fold x).of_add (isFoldOf_fold _)).unique (isFoldOf_fold _)

/-- An addition with end-around carry folds the sum of two 16-bit words (R165). -/
theorem endAroundAdd_eq_fold (hx : x ≤ 0xFFFF) (hy : y ≤ 0xFFFF) : endAroundAdd x y = fold (x + y) := by
  refine IsFoldOf.unique ?_ (isFoldOf_fold (x + y))
  unfold endAroundAdd IsFoldOf
  split <;> omega

/-- The accumulator holds Fold of what was added so far (R165). -/
theorem foldl_endAroundAdd {words : List Nat} (hwords : ∀ w ∈ words, w ≤ 0xFFFF) (hx : x ≤ 0xFFFF) :
    words.foldl endAroundAdd x = fold (x + words.sum) := by
  induction words generalizing x with
  | nil => exact (fold_of_le hx).symm
  | cons w ws ih =>
    obtain ⟨hw, hws⟩ := List.forall_mem_cons.1 hwords
    rw [List.foldl_cons, endAroundAdd_eq_fold hx hw, ih hws (fold_le _), fold_fold_add, List.sum_cons, Nat.add_assoc]

/-- Folding after each group of words gives Fold of all of them (R165). -/
theorem foldl_fold_groups (groups : List (List Nat)) (hx : x ≤ 0xFFFF) :
    groups.foldl (fun acc g => fold (acc + g.sum)) x = fold (x + groups.flatten.sum) := by
  induction groups generalizing x with
  | nil => exact (fold_of_le hx).symm
  | cons g gs ih =>
    rw [List.foldl_cons, ih (fold_le _), fold_fold_add, List.flatten_cons, List.sum_append, Nat.add_assoc]

theorem streamWord_le (l : List Byte) (k : Nat) : streamWord l k ≤ 0xFFFF := by
  have hhigh := (l.getD (2 * k) 0).isLt
  have hlow := (l.getD (2 * k + 1) 0).isLt
  unfold streamWord
  omega

/-- Every word of a stream is a 16-bit number. -/
theorem streamWords_le (l : List Byte) : ∀ w ∈ streamWords l, w ≤ 0xFFFF :=
  List.forall_mem_map.2 fun k _ => streamWord_le l k

end Sys2Proof.Machine
end

section
/-! SUPPORT. The stream as R161 says it byte by byte, and its ones'-complement sum. -/

namespace Sys2Proof.Machine

/-- The main range, byte by byte: the field bytes count as 0 (R161, R162). -/
theorem State.mainRange_getElem (s : State) (f : Nat) {k : Nat} (hk : k < (s.mainRange f).length) :
    (s.mainRange f)[k] = s.zeroedByte f (s.base.toNat + k) := by
  simp [State.mainRange, State.rangeStart]

theorem State.pseudoHeader_getElem (s : State) {k : Nat} (hk : k < s.pseudoHeader.length) :
    s.pseudoHeader[k] = s.phByte k := by
  rw [← s.pseudoHeader_getD k (by rw [s.pseudoHeader_length] at hk; omega), List.getD_eq_getElem _ _ hk]

/-- The model's stream is that of R161 and R162. -/
theorem State.stream_eq_specStream (s : State) (p : Bool) (fld : Nat) : s.stream p fld = specStream s p fld := by
  have hph : (if p then s.pseudoHeader else []).length = if p then min s.phLen 40 else 0 := by
    cases p
    · rfl
    · exact s.pseudoHeader_length
  refine List.ext_getElem ?_ fun k hk hk' => ?_
  · rw [s.stream_length, specStream, List.length_map, List.length_range, State.rangeLength]
  · simp only [State.stream, specStream, List.getElem_append, List.getElem_map, List.getElem_range, hph]
    by_cases hpart : k < if p then min s.phLen 40 else 0
    · rw [dif_pos hpart, if_pos hpart]
      cases p
      · exact absurd hpart (Nat.not_lt_zero k)
      · exact s.pseudoHeader_getElem _
    · rw [dif_neg hpart, if_neg hpart]
      exact s.mainRange_getElem _ _

/-- sum16 is the ones'-complement sum of the stream's words (R163). -/
theorem State.isOnesSum_sum16 (s : State) (p : Bool) (fld : Nat) : IsOnesSum (specStream s p fld) (s.sum16 p fld) := by
  rw [State.sum16, wordSum_eq_sum_streamWords, s.stream_eq_specStream]
  exact isFoldOf_fold _

/-- R163 leaves one number to be the ones'-complement sum. -/
theorem State.sum16_eq_of_isOnesSum {s : State} {p : Bool} {fld n : Nat} (h : IsOnesSum (specStream s p fld) n) :
    s.sum16 p fld = n :=
  IsFoldOf.unique (s.isOnesSum_sum16 p fld) h

theorem State.sum16_le (s : State) (p : Bool) (fld : Nat) : s.sum16 p fld ≤ 0xFFFF := fold_le _

/-- C is 0xFFFF - sum16 (R164). -/
theorem State.checksum_eq (s : State) (p : Bool) (fld : Nat) : s.checksum p fld = 0xFFFF - s.sum16 p fld := rfl

end Sys2Proof.Machine
end

section
/-! ## The sum -/

namespace Sys2Proof.Machine

/-- Settles O44: both lists hold the pseudo-header's bytes and then the range's. -/
theorem streamIsPseudoHeaderThenRange : Obligations.StreamIsPseudoHeaderThenRange := State.stream_eq_specStream

/-- Settles O45: a round keeps the residue and lowers the sum, and R163's description leaves one number. -/
theorem foldIsOnesComplementSum : Obligations.FoldIsOnesComplementSum := by
  refine ⟨wordSum_eq_sum_streamWords, fun x => ?_⟩
  obtain ⟨hle, hmod, hzero⟩ := isFoldOf_fold x
  exact ⟨fold_of_le, fun hx => ⟨fold_eq_fold_round x, (foldRound_keeps x).2.2 hx⟩, hle, hmod, by omega, by omega,
    foldRounds_two⟩

/-- Settles O46: the accumulator folds at each word, and a sum depends neither on order nor on grouping. -/
theorem endAroundCarryEquivalent : Obligations.EndAroundCarryEquivalent := by
  intro l words hperm
  have hsum : wordSum l = words.sum := (wordSum_eq_sum_streamWords l).trans hperm.sum_eq.symm
  have hwords : ∀ w ∈ words, w ≤ 0xFFFF := fun w hw => streamWords_le l w (hperm.subset hw)
  have hacc : endAroundSum words = fold words.sum := by
    rw [endAroundSum, foldl_endAroundAdd hwords (by decide), Nat.zero_add]
  obtain ⟨hle, hmod, hzero⟩ := isFoldOf_fold words.sum
  rw [hsum, hacc]
  refine ⟨rfl, hzero.trans List.sum_eq_zero_iff, hle, hmod, ?_⟩
  rintro groups rfl
  rw [foldl_fold_groups groups (by decide), Nat.zero_add]

end Sys2Proof.Machine
end

section
/-! SUPPORT. Every word of format C, and the checks of CKSUM, CKVER and CKAPP: each raises one of three errors or takes its
effect (spec 30_encoding.md R80, 44_checksum.md R160). -/

namespace Sys2Proof

/-- Bit 25 of a word, as the decoder reads it and as a bit (R80). -/
theorem decide_bits_p (v : Word) : decide (bits v 25 25 = 1) = v.getLsbD 25 :=
  (Nat.testBit_eq_decide_div_mod_eq (x := v.toNat) (i := 25)).symm

/-- An opcode whose words go to format C's decoder (R80). -/
theorem formatC_of_decode {op : Nat} {mk : Bool → Nat → Instr} (h : ∀ v, bits v 31 26 = op → decode v = decodeC v mk) :
    FormatC op mk := by
  refine fun v hop => ⟨fun hres => ?_, fun hres => raisesIllegal_of_decode ((h v hop).trans (if_neg hres))⟩
  rw [h v hop, decodeC, if_pos hres, decide_bits_p]

/-- CKCLR's format without the P bit reserves the bits format A does (R74, R80). -/
theorem decodeCNoP_eq_decodeA (v : Word) (mk : Nat → Instr) : decodeCNoP v mk = decodeA v mk := rfl

end Sys2Proof

namespace Sys2Proof.Machine

variable {i : Instr} {p : Bool} {fld : Nat} {effect : State → State} {s t : State}

/-- The checks of R160 as the bounds they are. -/
theorem checksumPasses_iff : firstError (s.checksumChecks fld) = none ↔ ChecksumPasses s fld := by
  simp only [State.checksumChecks, firstError_cons_eq_none, State.rangeCheck_eq_none, State.spanCheck_eq_none,
    firstError_nil, eq_self, and_true, State.rangeStart, State.rangeLength, ChecksumPasses]
  omega

/-- With every check passed, the effect is taken. -/
theorem Sums.exec_passes (h : Sums i p fld effect) (hs : s.err = 0) (hpass : ChecksumPasses s fld) :
    exec i s = .next (effect s) :=
  (h.exec_eq s).trans (runCommand_ok hs (checksumPasses_iff.2 hpass))

/-- A run that raises no error passed its checks and took its effect. -/
theorem Sums.of_next (h : Sums i p fld effect) (hs : s.err = 0) (hx : exec i s = .next t) (ht : t.err = 0) :
    ChecksumPasses s fld ∧ t = effect s := by
  rcases runCommand_cases ((h.exec_eq s).symm.trans hx) with ⟨hlocked, -⟩ | ⟨e, -, -, rfl⟩ | ⟨-, hpassed, rfl⟩
  · exact absurd hs hlocked
  · exact absurd ht (errorCode_ne_zero e.kind)
  · exact ⟨checksumPasses_iff.1 hpassed, rfl⟩

/-- The first check that fails latches its error: RANGE, BOUNDS of the range, BOUNDS of the field (R160, R200). -/
theorem Sums.checksumErrors (h : Sums i p fld effect) (hs : s.err = 0) : ChecksumErrors i s fld := by
  have hraise {e : CommandError} (he : firstError (s.checksumChecks fld) = some e) :
      exec i s = .next (s.raise e (encode i)) :=
    (h.exec_eq s).trans (runCommand_error hs he)
  refine ⟨fun hrange => hraise (e := ⟨.range, 0⟩) ?_,
    fun hne hout => hraise (e := ⟨.bounds, s.boundsAddr s.base.toNat⟩) ?_,
    fun hle hin hout => hraise (e := ⟨.bounds, s.boundsAddr (s.absAddr fld)⟩) ?_⟩
  · rw [State.checksumChecks, State.rangeCheck_of_lt hrange, firstError_some]
  · have hspan : s.spanCheck s.rangeStart s.rangeLength = some ⟨.bounds, s.boundsAddr s.base.toNat⟩ :=
      State.spanCheck_of_not (by unfold State.rangeLength; omega) (by unfold State.rangeStart State.rangeLength; omega)
    rw [State.checksumChecks, State.rangeCheck_eq_none.2 hne.le, hspan, firstError_none, firstError_some]
  · have hspan : s.spanCheck s.rangeStart s.rangeLength = none :=
      State.spanCheck_eq_none.2 (by unfold State.rangeStart State.rangeLength; omega)
    rw [State.checksumChecks, State.rangeCheck_eq_none.2 hle, hspan, State.spanCheck_of_not (by decide) hout,
      firstError_none, firstError_none, firstError_some]

end Sys2Proof.Machine
end

section
/-! SUPPORT. The two bytes of the checksum field, as CKVER reads them and as CKAPP and CKCLR write them (spec
44_checksum.md R172, R174, R176). -/

namespace Sys2Proof.Machine

variable {p : Bool} {fld : Nat} {s t : State}

theorem storedField_eq_memRead (s : State) (f : Nat) : storedField s f = s.memRead f 2 := (s.memRead_two f).symm

/-- A 16-bit number written to the field is the number stored there. -/
theorem storedField_memWrite (s : State) (f : Nat) {v : Nat} (hv : v ≤ 0xFFFF) :
    storedField (s.memWrite f 2 v) f = v := by
  rw [storedField_eq_memRead, State.memRead_memWrite]
  omega

theorem State.byteAt_memWrite_zero (s : State) {a n c : Nat} (hc : a ≤ c ∧ c < a + n) :
    (s.memWrite a n 0).byteAt c = 0 := by
  rw [State.byteAt_memWrite, if_pos hc, Nat.zero_shiftRight, Nat.zero_and]
  rfl

theorem State.checksum_le (s : State) (p : Bool) (fld : Nat) : s.checksum p fld ≤ 0xFFFF := Nat.sub_le ..

/-- CKVER's next state, its comparison said of the stored field (R172). -/
theorem exec_ckver (hs : s.err = 0) (hpass : ChecksumPasses s fld) :
    exec (.ckver p fld) s = .next { s with
      vok := decide (storedField s (s.absAddr fld) = s.checksum p fld)
      rdata := BitVec.ofNat 32 (s.checksum p fld), ckSum := BitVec.ofNat 16 (s.sum16 p fld) } := by
  rw [storedField_eq_memRead]
  exact (ckver_sums p fld).exec_passes hs hpass

/-- A CKVER that succeeds compares the stored field with C (R172). -/
theorem vok_of_ckver (hs : s.err = 0) (hx : exec (.ckver p fld) s = .next t) (ht : t.err = 0) :
    t.vok = decide (storedField s (s.absAddr fld) = s.checksum p fld) := by
  obtain ⟨-, rfl⟩ := (ckver_sums p fld).of_next hs hx ht
  rw [storedField_eq_memRead]
  rfl

theorem ckclr_accesses (fld : Nat) : Accesses (.ckclr fld) fld 2 (State.memWrite · · 2 0) := fun _ => rfl

end Sys2Proof.Machine
end

section
/-! SUPPORT. What CKSUM, CKVER and CKAPP leave in RDATA and CK_SUM, and the sum of a stream of zeroes (spec 44_checksum.md
R164, R166). -/

namespace Sys2Proof.Machine

variable {i : Instr} {p : Bool} {fld : Nat} {effect : State → State} {s t : State}

theorem sums_of_mem (h : i ∈ [Instr.cksum p fld, .ckver p fld, .ckapp p fld]) : ∃ effect, Sums i p fld effect := by
  simp only [List.mem_cons, List.not_mem_nil, or_false] at h
  rcases h with rfl | rfl | rfl
  · exact ⟨_, cksum_sums p fld⟩
  · exact ⟨_, ckver_sums p fld⟩
  · exact ⟨_, ckapp_sums p fld⟩

/-- A command whose effect writes no MEM writes none when it is discarded or fails either (R197, R198). -/
theorem Sums.mem_eq (h : Sums i p fld effect) (heffect : ∀ s, (effect s).mem = s.mem) (hx : exec i s = .next t) :
    t.mem = s.mem := by
  rcases runCommand_cases ((h.exec_eq s).symm.trans hx) with ⟨-, rfl⟩ | ⟨e, -, -, rfl⟩ | ⟨-, -, rfl⟩
  · rfl
  · rfl
  · exact heffect s

/-- The results of a checksum command as numbers: RDATA holds C and CK_SUM holds sum16, no bit lost (R170). -/
theorem Sums.results_toNat (h : Sums i p fld effect) (hs : s.err = 0) (hx : exec i s = .next t) (ht : t.err = 0) :
    t.rdata.toNat = 0xFFFF - s.sum16 p fld ∧ t.ckSum.toNat = s.sum16 p fld := by
  obtain ⟨-, rfl⟩ := h.of_next hs hx ht
  have hle := s.sum16_le p fld
  have hC : compl 16 (s.sum16 p fld) = 0xFFFF - s.sum16 p fld := rfl
  rw [h.rdata_eq, h.ckSum_eq, hC, BitVec.toNat_ofNat, BitVec.toNat_ofNat]
  omega

/-- The results of a checksum command, given its sum. -/
theorem Sums.results_eq {n : Nat} (h : Sums i p fld effect) (hs : s.err = 0) (hx : exec i s = .next t) (ht : t.err = 0)
    (hsum : s.sum16 p fld = n) : t.ckSum = BitVec.ofNat 16 n ∧ t.rdata = BitVec.ofNat 32 (0xFFFF - n) := by
  obtain ⟨-, rfl⟩ := h.of_next hs hx ht
  rw [h.ckSum_eq, h.rdata_eq, hsum]
  exact ⟨rfl, rfl⟩

/-- C = 0 exactly when sum16 = 0xFFFF (R166). -/
theorem Sums.rdata_eq_zero_iff (h : Sums i p fld effect) (hs : s.err = 0) (hx : exec i s = .next t) (ht : t.err = 0) :
    t.rdata = 0 ↔ t.ckSum = 0xFFFF := by
  obtain ⟨hrdata, hckSum⟩ := h.results_toNat hs hx ht
  have hle := s.sum16_le p fld
  rw [← BitVec.toNat_inj, ← BitVec.toNat_inj, hrdata, hckSum]
  change _ = 0 ↔ _ = 0xFFFF
  omega

theorem wordSum_of_zeros {l : List Byte} (hall : ∀ b ∈ l, b = 0) : wordSum l = 0 := by
  induction l using wordSum.induct with
  | case1 => rfl
  | case2 b =>
    rw [hall b (by simp)]
    rfl
  | case3 b c bs ih =>
    obtain ⟨rfl, rfl, hrest⟩ : b = 0 ∧ c = 0 ∧ ∀ d ∈ bs, d = 0 := by simpa using hall
    rw [wordSum_cons_cons, ih hrest]
    rfl

/-- A stream of zeroes sums to 0 (R166). -/
theorem State.sum16_of_zeros (hall : ∀ b ∈ specStream s p fld, b = 0) : s.sum16 p fld = 0 := by
  rw [State.sum16, s.stream_eq_specStream, wordSum_of_zeros hall]
  rfl

/-- With an empty range and no pseudo-header there is no byte to sum (R166). -/
theorem specStream_eq_nil (fld : Nat) (hrange : s.ckEnd = s.base) (hph : p = false ∨ s.phLen = 0) :
    specStream s p fld = [] := by
  have hpart : (if p then min s.phLen 40 else 0) = 0 := by
    rcases hph with rfl | hph
    · rfl
    · rw [hph, Nat.zero_min, ite_self]
  rw [← s.stream_eq_specStream, ← List.length_eq_zero_iff, s.stream_length, State.rangeLength, hrange, hpart,
    Nat.sub_self]

end Sys2Proof.Machine
end

section
/-! SUPPORT. Two states from which a checksum command sums the same bytes: they agree on everything R160 to R162 read, and
may differ in the two field bytes and in every other register. -/

namespace Sys2Proof.Machine

variable {p : Bool} {fld : Nat} {s s' t : State}

/-- `s'` has the range, the pseudo-header, BUF_LEN and the MEM bytes of `s`, but for the two bytes of the field. -/
structure SameSummed (fld : Nat) (s s' : State) : Prop where
  bufLen_eq : s'.bufLen = s.bufLen
  base_eq : s'.base = s.base
  ckEnd_eq : s'.ckEnd = s.ckEnd
  pseudoHeader_eq : s'.pseudoHeader = s.pseudoHeader
  byteAt_eq : ∀ a, a ≠ s.absAddr fld → a ≠ s.absAddr fld + 1 → s'.byteAt a = s.byteAt a

theorem SameSummed.absAddr_eq (h : SameSummed fld s s') : s'.absAddr fld = s.absAddr fld := by
  rw [State.absAddr, State.absAddr, h.base_eq]

theorem SameSummed.sum16_eq (h : SameSummed fld s s') : s'.sum16 p fld = s.sum16 p fld := by
  have hrange (f : Nat) : s'.mainRange f = State.mainRange { s with mem := s'.mem } f :=
    mainRange_congr f rfl h.base_eq h.ckEnd_eq
  have hmem : s'.sum16 p fld = State.sum16 { s with mem := s'.mem } p fld := by
    rw [State.sum16, State.stream, h.pseudoHeader_eq, h.absAddr_eq, hrange]
    rfl
  exact hmem.trans (sum16_withMem fun c ⟨_, _, hf, hf'⟩ => h.byteAt_eq c hf hf')

theorem SameSummed.checksum_eq (h : SameSummed fld s s') : s'.checksum p fld = s.checksum p fld :=
  congrArg (compl 16) h.sum16_eq

theorem SameSummed.passes (h : SameSummed fld s s') (hpass : ChecksumPasses s fld) : ChecksumPasses s' fld := by
  rwa [← checksumPasses_iff, checksumChecks_congr fld h.bufLen_eq h.base_eq h.ckEnd_eq, checksumPasses_iff]

/-- What is written to the field takes no part in the sum (R162). -/
theorem sameSummed_memWrite (s : State) (fld v : Nat) : SameSummed fld s (s.memWrite (s.absAddr fld) 2 v) :=
  ⟨rfl, rfl, rfl, rfl, fun _ hf hf' => s.byteAt_memWrite_outside v (by omega)⟩

/-- A CKAPP changes no byte it sums, and no register the sum is made of (R174). -/
theorem sameSummed_of_ckapp (hs : s.err = 0) (hx : exec (.ckapp p fld) s = .next t) (ht : t.err = 0) :
    SameSummed fld s t := by
  obtain ⟨-, rfl⟩ := (ckapp_sums p fld).of_next hs hx ht
  exact ⟨rfl, rfl, rfl, rfl, (sameSummed_memWrite s fld _).byteAt_eq⟩

/-- After a CKAPP the stored field is the C that the state it left sums to (R175). -/
theorem storedField_of_ckapp (hs : s.err = 0) (hx : exec (.ckapp p fld) s = .next t) (ht : t.err = 0) :
    storedField t (t.absAddr fld) = t.checksum p fld := by
  have hsame := sameSummed_of_ckapp hs hx ht
  rw [hsame.checksum_eq, hsame.absAddr_eq]
  obtain ⟨-, rfl⟩ := (ckapp_sums p fld).of_next hs hx ht
  exact storedField_memWrite _ _ (s.checksum_le p fld)

/-- A CKAPP gives the same C and the same MEM bytes whatever the field held before it (R162). -/
theorem ckapp_of_sameSummed (hs : s.err = 0) (hx : exec (.ckapp p fld) s = .next t) (ht : t.err = 0)
    (hs' : s'.err = 0) (h : SameSummed fld s s') :
    ∃ t', exec (.ckapp p fld) s' = .next t' ∧
      t' = { s' with mem := t'.mem, rdata := t.rdata, ckSum := t.ckSum } ∧ ∀ a, t'.byteAt a = t.byteAt a := by
  obtain ⟨hpass, rfl⟩ := (ckapp_sums p fld).of_next hs hx ht
  refine ⟨_, (ckapp_sums p fld).exec_passes hs' (h.passes hpass), ?_, fun a => ?_⟩
  · rw [State.checksumResults, State.checksumResults, h.checksum_eq, h.sum16_eq]
    rfl
  · rw [State.byteAt_memWrite, State.byteAt_memWrite, h.checksum_eq, h.absAddr_eq]
    by_cases ha : s.absAddr fld ≤ a ∧ a < s.absAddr fld + 2
    · rw [if_pos ha, if_pos ha]
    · rw [if_neg ha, if_neg ha]
      exact h.byteAt_eq a (by omega) (by omega)

end Sys2Proof.Machine
end

section
/-! SUPPORT. One changed byte of a stream: it moves the exact sum by less than 0xFFFF, so it changes what the sum folds to,
and a CKVER that held before fails (spec 44_checksum.md R175 c). -/

namespace Sys2Proof.Machine

variable {p : Bool} {fld k : Nat} {x : Byte} {s t : State}

/-- A byte counts 256 times as the high byte of a word, and once as the low one (R161). -/
theorem wordSum_set {l : List Byte} (hk : k < l.length) (x : Byte) :
    ∃ w, (w = 1 ∨ w = 256) ∧ wordSum (l.set k x) + w * l[k].toNat = wordSum l + w * x.toNat := by
  induction l using wordSum.induct generalizing k with
  | case1 => exact absurd hk (Nat.not_lt_zero k)
  | case2 b =>
    obtain rfl : k = 0 := by simpa using hk
    refine ⟨256, .inr rfl, ?_⟩
    simp only [List.set_cons_zero, List.getElem_cons_zero, wordSum_single]
    omega
  | case3 b c bs ih =>
    match k with
    | 0 =>
      refine ⟨256, .inr rfl, ?_⟩
      simp only [List.set_cons_zero, List.getElem_cons_zero, wordSum_cons_cons]
      omega
    | 1 =>
      refine ⟨1, .inl rfl, ?_⟩
      simp only [List.set_cons_succ, List.set_cons_zero, List.getElem_cons_succ, List.getElem_cons_zero,
        wordSum_cons_cons]
      omega
    | k + 2 =>
      obtain ⟨w, hw, hset⟩ := ih (k := k) (by simpa using hk)
      refine ⟨w, hw, ?_⟩
      simp only [List.set_cons_succ, List.getElem_cons_succ, wordSum_cons_cons]
      omega

/-- The sum moves by at most 256 * 0xFF, and not by 0. -/
theorem fold_wordSum_set_ne {l : List Byte} (hk : k < l.length) (hx : x ≠ l[k]) :
    fold (wordSum (l.set k x)) ≠ fold (wordSum l) := by
  intro hfold
  have hmod := mod_eq_of_fold_eq hfold
  have hne : x.toNat ≠ l[k].toNat := fun h => hx (BitVec.eq_of_toNat_eq h)
  have hnew := x.isLt
  have hold := l[k].isLt
  obtain ⟨w, rfl | rfl, hset⟩ := wordSum_set hk x <;> omega

/-- Inverting a bit changes a byte. -/
theorem xor_bit_ne (b : Byte) {j : Nat} (hj : j < 8) : b ^^^ BitVec.ofNat 8 (2 ^ j) ≠ b := by
  intro h
  have hbit := congrArg (·.getLsbD j) h
  rw [BitVec.getLsbD_xor, BitVec.getLsbD_ofNat, Nat.testBit_two_pow_self] at hbit
  simp [hj] at hbit

theorem State.byteAt_setByte (s : State) (a : Nat) (x : Byte) (c : Nat) :
    (s.setByte a x).byteAt c = if c = a then x else s.byteAt c :=
  Memory.readByte_writeByte s.mem a c x

/-- A MEM byte of the range, outside the field, is a byte of the main range (R161). -/
theorem State.mainRange_setByte (s : State) {a f : Nat} (x : Byte) (hlow : s.base.toNat ≤ a) (hf : a ≠ f)
    (hf' : a ≠ f + 1) : (s.setByte a x).mainRange f = (s.mainRange f).set (a - s.base.toNat) x := by
  refine List.ext_getElem (by simp [State.rangeLength]) fun k hk _ => ?_
  rw [State.mainRange_getElem, State.setByte_base, List.getElem_set, State.mainRange_getElem, State.zeroedByte,
    State.zeroedByte, State.byteAt_setByte]
  by_cases hka : a - s.base.toNat = k
  · rw [if_pos hka, if_neg (by omega), if_pos (by omega)]
  · rw [if_neg hka, if_neg (c := s.base.toNat + k = a) (by omega)]

/-- A PHBUF byte below PH_LEN is a byte of the pseudo-header (R41). -/
theorem pseudoHeader_setIfInBounds (s : State) (i : Nat) (x : Byte) :
    State.pseudoHeader { s with phbuf := s.phbuf.setIfInBounds i x } = s.pseudoHeader.set i x := by
  rw [State.pseudoHeader, State.pseudoHeader, Vector.toList_setIfInBounds, List.take_set]

/-- A CKVER over the stream of `s` with one byte changed fails against the checksum of `s`. -/
theorem ckver_detects (ht : t.err = 0) (hpass : ChecksumPasses t fld) (hk : k < (s.stream p fld).length)
    (hx : x ≠ (s.stream p fld)[k]) (hstream : t.stream p fld = (s.stream p fld).set k x)
    (hstored : storedField t (t.absAddr fld) = s.checksum p fld) :
    ∃ u, exec (.ckver p fld) t = .next u ∧ u.vok = false := by
  refine ⟨_, exec_ckver ht hpass, decide_eq_false fun heq => fold_wordSum_set_ne hk hx ?_⟩
  have hC : 0xFFFF - t.sum16 p fld = 0xFFFF - s.sum16 p fld := heq.symm.trans hstored
  have hle := t.sum16_le p fld
  have hle' := s.sum16_le p fld
  rw [← hstream]
  change t.sum16 p fld = s.sum16 p fld
  omega

/-- A stream byte in MEM (R175 c). -/
theorem ckver_detects_mem {a : Nat} (hs : s.err = 0) (hpass : ChecksumPasses s fld)
    (hstored : storedField s (s.absAddr fld) = s.checksum p fld) (hlow : s.base.toNat ≤ a) (hhigh : a < s.ckEnd.toNat)
    (hf : a ≠ s.absAddr fld) (hf' : a ≠ s.absAddr fld + 1) (hx : x ≠ s.byteAt a) :
    ∃ u, exec (.ckver p fld) (s.setByte a x) = .next u ∧ u.vok = false := by
  have hindex : a - s.base.toNat < (s.mainRange (s.absAddr fld)).length := by
    rw [State.mainRange_length, State.rangeLength]
    omega
  have hbyte : (s.mainRange (s.absAddr fld))[a - s.base.toNat] = s.byteAt a := by
    rw [State.mainRange_getElem, Nat.add_sub_cancel' hlow, State.zeroedByte, if_neg (by omega)]
  have hfield : storedField (s.setByte a x) (s.absAddr fld) = storedField s (s.absAddr fld) := by
    rw [storedField, storedField, State.byteAt_setByte, State.byteAt_setByte, if_neg hf.symm, if_neg hf'.symm]
  have hstream : (s.setByte a x).stream p fld =
      (s.stream p fld).set ((if p then s.pseudoHeader else []).length + (a - s.base.toNat)) x := by
    rw [State.stream, State.stream, List.set_append_right _ _ (Nat.le_add_right _ _), Nat.add_sub_cancel_left,
      ← s.mainRange_setByte x hlow hf hf']
    rfl
  refine ckver_detects hs hpass ?_ ?_ hstream (hfield.trans hstored)
  · rw [State.stream, List.length_append]
    omega
  · simpa [State.stream, List.getElem_append_right] using hbyte ▸ hx

/-- A stream byte in PHBUF (R175 c). -/
theorem ckver_detects_phbuf {i : Nat} (hs : s.err = 0) (hpass : ChecksumPasses s fld)
    (hstored : storedField s (s.absAddr fld) = s.checksum true fld) (hi : i < s.phLen) (hi40 : i < 40)
    (hx : x ≠ s.phByte i) :
    ∃ u, exec (.ckver true fld) { s with phbuf := s.phbuf.setIfInBounds i x } = .next u ∧ u.vok = false := by
  have hindex : i < s.pseudoHeader.length := by
    rw [s.pseudoHeader_length]
    omega
  refine ckver_detects (s := s) (k := i) (x := x) hs hpass ?_ ?_ ?_ hstored
  · rw [State.stream, if_pos rfl, List.length_append]
    omega
  · simpa [State.stream, hindex, s.pseudoHeader_getElem hindex] using hx
  · rw [State.stream, State.stream, if_pos rfl, if_pos rfl, List.set_append_left _ _ hindex,
      pseudoHeader_setIfInBounds]
    rfl

end Sys2Proof.Machine
end

section
/-! ## The checksum commands -/

namespace Sys2Proof.Machine

/-- Settles O47: the effect writes the two results alone, and R163 describes the sum. -/
theorem cksumComputes : Obligations.CksumComputes := by
  refine ⟨formatC_of_decode fun v hop => by simp only [decode, hop], fun s p fld hs => ⟨fun hpass => ?_, ?_⟩⟩
  · exact ⟨s.sum16 p fld, s.isOnesSum_sum16 p fld, (cksum_sums p fld).exec_passes hs hpass⟩
  · exact (cksum_sums p fld).checksumErrors hs

/-- Settles O48: the effect adds the comparison of the stored field with C to CKSUM's results. -/
theorem ckverComparesStoredField : Obligations.CkverComparesStoredField := by
  refine ⟨formatC_of_decode fun v hop => by simp only [decode, hop], fun s p fld hs => ⟨fun hpass => ?_, ?_⟩⟩
  · exact ⟨s.sum16 p fld, s.isOnesSum_sum16 p fld, exec_ckver hs hpass⟩
  · exact (ckver_sums p fld).checksumErrors hs

/-- Settles O49: the effect adds the write of C, of the state before it, to CKSUM's results. -/
theorem ckappStoresChecksum : Obligations.CkappStoresChecksum := by
  refine ⟨formatC_of_decode fun v hop => by simp only [decode, hop], ?_⟩
  rintro s p fld _ hs rfl
  refine ⟨fun hpass => ?_, (ckapp_sums p fld).checksumErrors hs⟩
  refine ⟨s.sum16 p fld, _, s.isOnesSum_sum16 p fld, (ckapp_sums p fld).exec_passes hs hpass, rfl, ?_, fun a ha => ?_⟩
  · exact storedField_memWrite _ _ (s.checksum_le p fld)
  · exact State.byteAt_memWrite_outside _ _ (by omega)

/-- Settles O50: the command writes two zero bytes, and what they were takes no part in a CKAPP after it. -/
theorem ckclrZeroesField : Obligations.CkclrZeroesField := by
  refine ⟨formatA_of_decode fun v hop => by simp only [decode, hop, decodeCNoP_eq_decodeA], ?_⟩
  rintro s fld _ hs rfl
  have hclear := ckclr_accesses fld
  have hzero (c : Nat) (hc : s.absAddr fld ≤ c ∧ c < s.absAddr fld + 2) :
      (s.memWrite (s.absAddr fld) 2 0).byteAt c = 0 := s.byteAt_memWrite_zero hc
  have hkept (c : Nat) (hc : c < s.absAddr fld ∨ s.absAddr fld + 2 ≤ c) :
      (s.memWrite (s.absAddr fld) 2 0).byteAt c = s.byteAt c := s.byteAt_memWrite_outside 0 (by omega)
  refine ⟨fun hin => ⟨_, hclear.exec_inBounds hs hin, hzero _ (by omega), hzero _ (by omega), hkept⟩,
    hclear.raises_bounds hs (by decide), fun p t u ht hu huerr => ?_⟩
  obtain ⟨⟨-, -, hin⟩, happlied⟩ := (ckapp_sums p fld).of_next hs hu huerr
  obtain rfl : s.memWrite (s.absAddr fld) 2 0 = t :=
    Host.Outcome.next.inj ((hclear.exec_inBounds hs hin).symm.trans ht)
  obtain ⟨v, hv, hregs, hbytes⟩ := ckapp_of_sameSummed (s' := s.memWrite (s.absAddr fld) 2 0) hs hu huerr hs
    (sameSummed_memWrite s fld 0)
  refine ⟨v, hv, hregs.trans ?_, hbytes⟩
  rw [happlied]
  rfl

/-- Settles O51: RDATA and CK_SUM hold C and sum16, and each corner fixes sum16. -/
theorem checksumCornerValues : Obligations.ChecksumCornerValues := by
  intro s t p fld hs ht
  refine ⟨fun i hi hx => ?_, fun hx => ?_⟩
  · obtain ⟨effect, h⟩ := sums_of_mem hi
    have hzero (hall : ∀ b ∈ specStream s p fld, b = 0) : t.ckSum = 0 ∧ t.rdata = 0xFFFF :=
      h.results_eq hs hx ht (State.sum16_of_zeros hall)
    refine ⟨fun hrange hph => hzero ?_, fun hall => (hzero hall).2, h.rdata_eq_zero_iff hs hx ht, fun hones => ?_⟩
    · rw [specStream_eq_nil fld hrange hph]
      exact fun b hb => absurd hb List.not_mem_nil
    · have hsum : s.sum16 p fld = 0xFFFF := by
        rw [State.sum16, s.stream_eq_specStream, hones]
        rfl
      exact (h.results_eq hs hx ht hsum).2
  · rw [vok_of_ckver hs hx ht, ((ckver_sums p fld).results_toNat hs hx ht).1]
    rfl

/-- Settles O52: the field holds the C of the state CKAPP left, and the second state sums to the same C. -/
theorem applyThenVerifySucceeds : Obligations.ApplyThenVerifySucceeds := by
  intro s t t' p fld hs hx ht ht' hmem hlen hbase hend hph
  have hbyte (a : Nat) : t'.byteAt a = t.byteAt a := by rw [State.byteAt, State.byteAt, hmem]
  have hsame : SameSummed fld t t' := ⟨hlen, hbase, hend, hph, fun a _ _ => hbyte a⟩
  have hpass := ((ckapp_sums p fld).of_next hs hx ht).1
  refine ⟨_, exec_ckver ht' (hsame.passes ((sameSummed_of_ckapp hs hx ht).passes hpass)), ht', decide_eq_true ?_⟩
  rw [hsame.absAddr_eq, hsame.checksum_eq, ← storedField_of_ckapp hs hx ht, storedField, storedField, hbyte, hbyte]

/-- Settles O53: the second CKAPP starts from a state that differs from the first's in no byte it sums. -/
theorem applyIsIdempotent : Obligations.ApplyIsIdempotent := by
  intro s t p fld hs hx ht
  exact ckapp_of_sameSummed hs hx ht ht (sameSummed_of_ckapp hs hx ht)

/-- Settles O54: an inverted bit is a changed byte of the stream. -/
theorem verifyDetectsSingleBitFlip : Obligations.VerifyDetectsSingleBitFlip := by
  intro s t p fld j hs hx ht hj
  have hsame := sameSummed_of_ckapp hs hx ht
  have hpass := hsame.passes ((ckapp_sums p fld).of_next hs hx ht).1
  have hstored := storedField_of_ckapp hs hx ht
  refine ⟨fun a hlow hhigh hf hf' => ?_, ?_⟩
  · rw [← hsame.base_eq] at hlow
    rw [← hsame.ckEnd_eq] at hhigh
    rw [← hsame.absAddr_eq] at hf hf'
    exact ckver_detects_mem ht hpass hstored hlow hhigh hf hf' (xor_bit_ne _ hj)
  · rintro i rfl hi hi40
    exact ckver_detects_phbuf ht hpass hstored hi hi40 (xor_bit_ne _ hj)

/-- Settles O55: CKVER's effect writes registers alone, and C is a function of the stream. -/
theorem verifyDependsOnStreamAndField : Obligations.VerifyDependsOnStreamAndField := by
  refine ⟨fun s t p fld hx => (ckver_sums p fld).mem_eq (fun _ => rfl) hx, ?_, ?_⟩
  · intro s t s' t' p p' fld fld' hs hs' hx hx' ht ht' hstream hfield
    have hC : s.checksum p fld = s'.checksum p' fld' := by
      rw [State.checksum, State.sum16, s.stream_eq_specStream, hstream, ← s'.stream_eq_specStream, ← State.sum16,
        ← State.checksum]
    rw [vok_of_ckver hs hx ht, vok_of_ckver hs' hx' ht', hC, hfield]
  · intro s t p fld n hs hx ht hn
    rw [vok_of_ckver hs hx ht, decide_eq_true_iff, s.checksum_eq, State.sum16_eq_of_isOnesSum hn]

/-- Settles O56: CKSUM reads no byte of the field and writes none of MEM. -/
theorem storedFieldTakesNoPart : Obligations.StoredFieldTakesNoPart := by
  intro s t m p fld hm hx
  have hcksum := cksum_sums p fld
  have hsum : SameRegisters (s.checksumResults p fld) (State.checksumResults { s with mem := m } p fld) :=
    sameRegisters_checksumResults fun c ⟨_, _, hf, hf'⟩ => hm c hf hf'
  obtain ⟨t', hrun, hregs, -⟩ := runCommand_withMem (i := .cksum p fld) ((hcksum.exec_eq s).symm.trans hx)
    (hsum.sameEffect fun _ => id)
  have hx' : exec (.cksum p fld) { s with mem := m } = .next t' := hrun
  have hmem : t'.mem = m := hcksum.mem_eq (fun _ => rfl) hx'
  have hregs' : t' = { t with mem := m } := hmem ▸ hregs
  exact ⟨hcksum.mem_eq (fun _ => rfl) hx, hregs' ▸ hx'⟩

/-- Settles O57: CKVER compares the zeroes that CKCLR wrote with C. -/
theorem clearThenVerify : Obligations.ClearThenVerify := by
  intro s t u p fld hs hx ht hx' hu
  obtain ⟨-, rfl⟩ := (ckclr_accesses fld).of_next hs (by decide) hx ht
  have hfield : storedField (s.memWrite (s.absAddr fld) 2 0) (s.absAddr fld) = 0 :=
    storedField_memWrite s _ (Nat.zero_le _)
  have hresult := (ckver_sums p fld).results_toNat ht hx' hu
  refine ⟨?_, (ckver_sums p fld).rdata_eq_zero_iff ht hx' hu⟩
  have haddr : (s.memWrite (s.absAddr fld) 2 0).absAddr fld = s.absAddr fld := rfl
  rw [vok_of_ckver ht hx' hu, decide_eq_true_iff, haddr, hfield, State.checksum_eq, ← hresult.1, eq_comm,
    ← BitVec.toNat_inj]
  rfl

end Sys2Proof.Machine
end

section
/-! SUPPORT. A command by its outcome: it always answers, a locked engine discards it, and one that sets ERR was failed by
a check (spec 60_exceptions.md R197, R198, R201). -/

namespace Sys2Proof.Machine

variable {i : Instr} {s t : State} {e : CommandError}

theorem exec_next (i : Instr) (s : State) : ∃ t, exec i s = .next t := by
  obtain ⟨cs, f, hx⟩ := exec_eq_runCommand i s
  exact hx ▸ runCommand_next _ cs f s

theorem exec_locked (i : Instr) (hs : s.err ≠ 0) : exec i s = .next s := by
  obtain ⟨cs, f, hx⟩ := exec_eq_runCommand i s
  exact hx.trans (runCommand_locked hs)

theorem issueCommand_next (v : Word) (s : State) : ∃ t, issueCommand v s = .next t := by
  by_cases hs : s.err = 0
  · cases hd : decode v with
    | command i => exact issueCommand_command hs hd ▸ exec_next i s
    | illegal why => exact ⟨_, issueCommand_illegal hs hd⟩
  · exact ⟨s, issueCommand_locked hs⟩

/-- Of the errors a check raises, BOUNDS alone carries an address (R34). -/
theorem CheckError.addr_eq_zero (h : CheckError s e) (hcode : errorCode e.kind ≠ 5) : e.addr = 0 := by
  cases h with
  | bounds => exact absurd rfl hcode
  | _ => rfl

/-- An effect leaves ERR at 0, so a command that sets it latched the error of a check, and nothing else (R201). -/
theorem exec_failed (hs : s.err = 0) (hx : exec i s = .next t) (ht : t.err ≠ 0) :
    ∃ e, CheckError s e ∧ t = s.raise e (encode i) := by
  cases exec_result hx with
  | discarded hlocked => exact absurd hs hlocked
  | failed _ he => exact ⟨_, he, rfl⟩
  | done _ heffect => exact absurd (heffect.err_eq.trans hs) ht

end Sys2Proof.Machine
end

section
/-! SUPPORT. The checks of a command in the order of R200, read off the spec's tables (42_bitfield.md R121, 20_memory.md
R57), and which of them is the first to fail: `exec` makes these checks, so it raises that one. -/

namespace Sys2Proof.Machine

variable {cs ds : List (Option CommandError)} {i : Instr} {s t : State} {e : CommandError} {a n : Nat}

/-- The FIELD check of a format F command (R194). -/
def fieldChecks (i : Instr) : List (Option CommandError) :=
  (fieldOperands i).toList.map fun op => fieldCheck op.1 op.2.1 op.2.2

/-- The RANGE check of a command that sums a range (R195). -/
def rangeChecks (i : Instr) (s : State) : List (Option CommandError) := if sumsRange i then [s.rangeCheck] else []

/-- The PHOVF check of an append (R199). -/
def roomChecks (i : Instr) (s : State) : List (Option CommandError) := (appendedBytes i).toList.map s.roomCheck

/-- The BOUNDS check of each span, in the order of R57 (R196). -/
def spanChecks (i : Instr) (s : State) : List (Option CommandError) :=
  (checkedSpans i s).map fun sp => s.spanCheck sp.1 sp.2

/-- The checks of R200 that follow decoding, in its order. -/
def commandChecks (i : Instr) (s : State) : List (Option CommandError) :=
  fieldChecks i ++ (rangeChecks i s ++ (roomChecks i s ++ spanChecks i s))

/-- Every command makes the checks of R200 in its order, and its effect, taken when all pass, leaves ERR alone. -/
theorem exec_eq_commandChecks (i : Instr) (s : State) :
    ∃ f, exec i s = runCommand (encode i) (commandChecks i s) f s ∧ ∀ u, (f u).err = u.err := by
  cases i <;> simp only [exec]
  -- The field lemma spares these two the unfolding of the pseudo-header they build.
  case ph4 | ph6 => exact ⟨_, rfl, fun u => u.phReplace_err _⟩
  all_goals exact ⟨_, rfl, fun _ => rfl⟩

/-- The first check that fails is the error a command raises (R200). -/
theorem raises_of_firstError (hs : s.err = 0) (he : firstError (commandChecks i s) = some e) :
    Raises i s (errorCode e.kind) e.addr := by
  obtain ⟨f, hx, -⟩ := exec_eq_commandChecks i s
  exact hx.trans (runCommand_error hs he)

/-- A command with no check that fails leaves ERR at 0 (R200). -/
theorem err_of_firstError_none (hs : s.err = 0) (he : firstError (commandChecks i s) = none)
    (hx : exec i s = .next t) : t.err = 0 := by
  obtain ⟨f, hf, hkeep⟩ := exec_eq_commandChecks i s
  obtain rfl : f s = t := Host.Outcome.next.inj ((runCommand_ok hs he).symm.trans (hf.symm.trans hx))
  exact (hkeep s).trans hs

/-! Which check is the first to fail. -/

theorem firstError_eq_none_iff : firstError cs = none ↔ ∀ c ∈ cs, c = none := by
  induction cs with
  | nil => simp
  | cons c cs ih => rw [firstError_cons_eq_none, ih, List.forall_mem_cons]

theorem firstError_append_of_none (h : firstError cs = none) : firstError (cs ++ ds) = firstError ds := by
  induction cs with
  | nil => rfl
  | cons c cs ih =>
    obtain ⟨rfl, hcs⟩ := firstError_cons_eq_none.1 h
    exact ih hcs

theorem fieldChecks_of_fails (h : FieldFails i) : fieldChecks i = [some ⟨.field, 0⟩] := by
  obtain ⟨w, sh, cbits, hop, hover⟩ := h
  rw [fieldChecks, hop, Option.toList_some, List.map_singleton, fieldCheck_of_lt hover]

theorem fieldChecks_passed (h : ¬ FieldFails i) : firstError (fieldChecks i) = none := by
  refine firstError_eq_none_iff.2 (List.forall_mem_map.2 fun ⟨w, sh, cbits⟩ hop => fieldCheck_eq_none.2 ?_)
  exact Nat.le_of_not_lt fun hover => h ⟨w, sh, cbits, Option.mem_toList.1 hop, hover⟩

theorem rangeChecks_of_fails (h : RangeFails i s) : rangeChecks i s = [some ⟨.range, 0⟩] := by
  obtain ⟨hsums, hlt⟩ := h
  rw [rangeChecks, if_pos hsums, State.rangeCheck_of_lt hlt]

theorem rangeChecks_passed (h : ¬ RangeFails i s) : firstError (rangeChecks i s) = none := by
  unfold rangeChecks
  split
  next hsums =>
    exact firstError_cons_eq_none.2 ⟨State.rangeCheck_eq_none.2 (Nat.le_of_not_lt fun hlt => h ⟨hsums, hlt⟩), rfl⟩
  next => rfl

theorem roomChecks_of_fails (h : RoomFails i s) : roomChecks i s = [some ⟨.phovf, 0⟩] := by
  obtain ⟨k, hk, hover⟩ := h
  rw [roomChecks, hk, Option.toList_some, List.map_singleton, State.roomCheck_of_lt hover]

theorem roomChecks_passed (h : ¬ RoomFails i s) : firstError (roomChecks i s) = none := by
  refine firstError_eq_none_iff.2 (List.forall_mem_map.2 fun k hk => State.roomCheck_eq_none.2 ?_)
  exact Nat.le_of_not_lt fun hover => h ⟨k, Option.mem_toList.1 hk, hover⟩

theorem State.spanCheck_of_not_inBounds (h : ¬ InBounds s a n) : s.spanCheck a n = some ⟨.bounds, s.boundsAddr a⟩ := by
  unfold InBounds at h
  exact State.spanCheck_of_not (by omega) (by omega)

/-- Spans in bounds pass their checks. -/
theorem firstError_spans_of_inBounds {spans : List (Nat × Nat)} (h : ∀ sp ∈ spans, InBounds s sp.1 sp.2) :
    firstError (spans.map fun sp => s.spanCheck sp.1 sp.2) = none :=
  firstError_eq_none_iff.2 (List.forall_mem_map.2 fun sp hsp => State.spanCheck_eq_none.2 (h sp hsp))

/-- The first span that is not in bounds raises BOUNDS with its own address (R196). -/
theorem firstError_spanChecks (h : BoundsFailsAt i s a n) :
    firstError (spanChecks i s) = some ⟨.bounds, s.boundsAddr a⟩ := by
  obtain ⟨before, after, hspans, hbefore, hout⟩ := h
  rw [spanChecks, hspans, List.map_append, firstError_append_of_none (firstError_spans_of_inBounds hbefore),
    List.map_cons, State.spanCheck_of_not_inBounds hout, firstError_some]

theorem firstError_field (h : FieldFails i) : firstError (commandChecks i s) = some ⟨.field, 0⟩ := by
  rw [commandChecks, fieldChecks_of_fails h, List.singleton_append, firstError_some]

theorem firstError_range (hfield : ¬ FieldFails i) (h : RangeFails i s) :
    firstError (commandChecks i s) = some ⟨.range, 0⟩ := by
  rw [commandChecks, firstError_append_of_none (fieldChecks_passed hfield), rangeChecks_of_fails h,
    List.singleton_append, firstError_some]

theorem firstError_phovf (hfield : ¬ FieldFails i) (hrange : ¬ RangeFails i s) (h : RoomFails i s) :
    firstError (commandChecks i s) = some ⟨.phovf, 0⟩ := by
  rw [commandChecks, firstError_append_of_none (fieldChecks_passed hfield),
    firstError_append_of_none (rangeChecks_passed hrange), roomChecks_of_fails h, List.singleton_append, firstError_some]

/-- With no earlier error, the spans decide. -/
theorem firstError_of_noEarlierError (h : NoEarlierError i s) :
    firstError (commandChecks i s) = firstError (spanChecks i s) := by
  obtain ⟨hfield, hrange, hroom⟩ := h
  rw [commandChecks, firstError_append_of_none (fieldChecks_passed hfield),
    firstError_append_of_none (rangeChecks_passed hrange), firstError_append_of_none (roomChecks_passed hroom)]

theorem firstError_bounds (h : NoEarlierError i s) (hout : BoundsFailsAt i s a n) :
    firstError (commandChecks i s) = some ⟨.bounds, s.boundsAddr a⟩ :=
  (firstError_of_noEarlierError h).trans (firstError_spanChecks hout)

theorem firstError_passed (h : NoEarlierError i s) (hin : ∀ sp ∈ checkedSpans i s, InBounds s sp.1 sp.2) :
    firstError (commandChecks i s) = none :=
  (firstError_of_noEarlierError h).trans (firstError_spans_of_inBounds hin)

end Sys2Proof.Machine
end

section
/-! ## The error latch -/

namespace Sys2Proof.Machine

/-- Settles O7: the host's port does not read ERR, and the CMD port and every command read it before anything else. -/
theorem lockedEngineDiscardsCommands : Obligations.LockedEngineDiscardsCommands := by
  intro s hs
  have hcmd (v : Word) : WritesTo s 0x00 v s :=
    writesTo_of_writeRegister rfl (by decide) fun rest => issueCommand_locked (s := s.setPending rest) hs
  have hwrites := hostWritesReachRegisters s
  simp only [forall_and] at hwrites
  obtain ⟨hbase, hwdata, hckEnd, hunlock, -⟩ := hwrites
  exact ⟨hcmd, fun i => exec_locked i hs, hbase, hwdata, hckEnd, readsAs_readRegister s rfl (by decide), hunlock,
    fun a b rest ha => step_memWrite b rest ha, fun a rest ha => (hostMemoryPort s a 0 rest ha).2⟩

/-- Settles O8: an illegal word is latched as it is, and a failing command latches its own word, which is the one
written. -/
theorem errorLatchRecordsWord : Obligations.ErrorLatchRecordsWord := by
  intro s t v rest hp hs hstep ht
  rw [step_of_pending hp, hostStep_cmd] at hstep
  rcases issueCommand_cases hstep with ⟨hlocked, -⟩ | ⟨-, -, rfl⟩ | ⟨-, i, hd, hx⟩
  · exact absurd hs hlocked
  · exact ⟨rfl, fun _ => rfl⟩
  · obtain ⟨e, he, rfl⟩ := exec_failed (s := s.setPending rest) hs hx ht
    rw [encode_of_decode hd]
    exact ⟨rfl, he.addr_eq_zero⟩

/-- Settles O19: a command that leaves ERR set was failed by a check, which raises the latch alone. -/
theorem errorsArePrecise : Obligations.ErrorsArePrecise := by
  intro i s t hs hx ht
  obtain ⟨e, -, rfl⟩ := exec_failed hs hx ht
  rfl

/-- Settles O21: with no earlier error, the first span out of bounds is the first check that fails. -/
theorem boundsRecordsLowestAddress : Obligations.BoundsRecordsLowestAddress := by
  intro i s a n hs hearlier hout
  exact ⟨s.boundsAddr a, raises_of_firstError hs (firstError_bounds hearlier hout), s.boundsAddr_toNat a⟩

/-- Settles O20: the lock and ILLEGAL come before any check of a command, and then the first check that fails decides. -/
theorem oneErrorInCheckOrder : Obligations.OneErrorInCheckOrder := by
  intro s v rest hp
  rw [step_of_pending hp, hostStep_cmd]
  obtain ⟨t, ht⟩ := issueCommand_next v (s.setPending rest)
  refine ⟨t, ht, fun hs => ?_, fun hs ⟨why, hd⟩ => ?_, fun i hs hd => ?_⟩
  · exact Host.Outcome.next.inj (ht.symm.trans (issueCommand_locked hs))
  · rw [issueCommand_illegal (s := s.setPending rest) hs hd] at ht
    cases ht
    rfl
  · rw [issueCommand_command (s := s.setPending rest) hs hd] at ht
    have hraised {e : CommandError} (he : firstError (commandChecks i (s.setPending rest)) = some e) :
        t.err = errorCode e.kind ∧ t.erraddr = e.addr := by
      cases ht.symm.trans (raises_of_firstError hs he)
      exact ⟨rfl, rfl⟩
    refine ⟨fun hfield => (hraised (firstError_field hfield)).1,
      fun hfield hrange => (hraised (firstError_range hfield hrange)).1,
      fun hfield hrange hroom => (hraised (firstError_phovf hfield hrange hroom)).1, fun hearlier a n hout => ?_,
      fun hearlier hin => err_of_firstError_none (s := s.setPending rest) hs (firstError_passed hearlier hin) ht⟩
    obtain ⟨hcode, haddr⟩ := hraised (firstError_bounds hearlier hout)
    exact ⟨hcode, haddr ▸ State.boundsAddr_toNat _ a⟩

end Sys2Proof.Machine
end

section
/-! SUPPORT. The reset event: one step, after which PHBUF is zero (spec 70_reset_and_hazards.md R220). -/

namespace Sys2Proof.Machine

@[simp] theorem State.phByte_applyReset (s : State) (i : Nat) : s.applyReset.phByte i = 0 := zeroedPhbuf_getD i

theorem step_reset (s : State) (rest : List HostOp) :
    step { s with pending := .reset :: rest } = .next (s.setPending rest).applyReset :=
  step_of_pending (s := { s with pending := .reset :: rest }) rfl

end Sys2Proof.Machine
end

section
/-! ## Termination and reset -/

namespace Sys2Proof.Machine

/-- Settles O18: every command is a `runCommand` of its checks and its effect, and that answers a next state whether the
engine is locked, a check fails or all pass. -/
theorem everyCommandAnswersNext : Obligations.EveryCommandAnswersNext := exec_next

/-- Settles O14: the reset event is `applyReset` at the state with the event taken off the queue, and the field lemmas of
`applyReset` give each register. -/
theorem resetEventResetsRegisters : Obligations.ResetEventResetsRegisters := by
  intro s rest
  refine ⟨(s.setPending rest).applyReset, step_reset s rest, ?_⟩
  simp

end Sys2Proof.Machine
end

section
/-! SUPPORT. The edges of the host's ports (log 7, log 8), and the idle engine (log 5). -/

namespace Sys2Proof.Machine

variable {s : State} {off a : Nat} {f : State → Host.Outcome State Fault Refusal}

/-- With no host operation waiting the engine is idle, and a step changes nothing (log 5). -/
theorem step_idle (h : s.pending = []) : step s = .next s := by
  simp [step, hostNext, h]

/-- An aligned 32-bit access past the register space faults whatever it would do (log 8). -/
theorem registerAccess_outside (h4 : off % 4 = 0) (h : 128 ≤ off) :
    registerAccess 32 off s f = .fault .outsideRegisterSpace := by
  rw [registerAccess, if_pos ⟨rfl, h4⟩, registerSpaceBytes, if_neg (Nat.not_lt.2 h)]

/-- A memory port access at or past BUF_LEN faults whatever it would do (log 7). -/
theorem memoryAccess_outside (h : s.bufLen.toNat ≤ a) : memoryAccess a s f = .fault .outsidePacketBuffer := by
  rw [memoryAccess, if_neg (Nat.not_lt.2 h)]

end Sys2Proof.Machine
end

section
/-! SUPPORT. The invariant at power-up (spec 70_reset_and_hazards.md R220, R221). -/

namespace Sys2Proof.Machine

/-- At power-up MEM is the only thing the invariant has to be told about: PHBUF is zero and the latch is clear. -/
theorem State.powerUp_inv {n : Word} {m : Memory} (hwf : Memory.wf m = true) (hin : ∀ c ∈ m, c.1 < n.toNat) :
    (State.powerUp n m).Inv where
  memCanonical := hwf
  memInBuffer := hin
  phRoom := Nat.zero_le _
  phClean i _ := zeroedPhbuf_getD i
  errCode := Nat.zero_le _
  latchClear _ := ⟨rfl, rfl⟩
  addrOnlyForBounds _ := rfl
  addrOutside h := absurd h (by decide : (0 : BitVec 4) ≠ 5)
  latchedWord h := absurd rfl h

end Sys2Proof.Machine
end

section
/-! ## The port's edges and power-up -/

namespace Sys2Proof.Machine

/-- Settles O13: a step takes the access off the queue, which leaves BUF_LEN alone, and the port answers with a fault
before it reaches MEM or the register map. -/
theorem portEdgesAndIdle : Obligations.PortEdgesAndIdle := by
  refine ⟨fun s => step_idle, fun s a b rest ha => ?_, fun s off v rest hoff h4 => ?_⟩
  · constructor <;> rw [step_of_pending rfl, hostStep] <;> exact memoryAccess_outside (s := s.setPending rest) ha
  · constructor <;> rw [step_of_pending rfl, hostStep] <;> exact registerAccess_outside h4 hoff

/-- Settles O15: `State.reset` is a power-up with no byte of MEM listed. -/
theorem resetStateMeetsInvariant : Obligations.ResetStateMeetsInvariant :=
  ⟨fun _ _ => State.powerUp_inv, State.powerUp_inv Memory.wf_reset (by simp)⟩

end Sys2Proof.Machine
end
